-- ==== Sys2Proof/Word.lean ====
section
/-! DEFINITION. The two word types of the block (00_scope.md R12, R14): everything wider or narrower is a
natural number, a list or a Bool. -/

namespace Sys2Proof

/-- A byte, 8 bits (R12); every data port is one byte wide (R12, R45). -/
abbrev Byte := BitVec 8

/-- A CRC value, 16 bits, the only multi-byte quantity of the block (R14, R44). -/
abbrev U16 := BitVec 16

end Sys2Proof
end

