-- ==== Sys2Proof/Config.lean ====
section
/-! DEFINITION. What an instance of the block fixes: the parameters of 00_scope.md R9 and the polynomial family's
four numbers (R10) as plain data, and the free values of an instance of which nothing is known: its three markers,
its capacity, and the three parts of its CRC algorithm. No meaning holds a marker value, a capacity or a CRC number:
each takes them from `Params`. -/

namespace Sys2Proof

/-- The polynomial family's four numbers (R10): CRC_POLY, CRC_INIT, CRC_REFLECT, CRC_XOROUT. -/
structure CrcFamily where
  poly    : U16
  init    : U16
  reflect : Bool
  xorOut  : U16
  deriving DecidableEq, Repr

/-- The CRC16 algorithm of an instance (R9, R91, U1): either a member of the polynomial family, given as data,
or the source's "external pinned constant" of which nothing is known: the three opaque constants below. -/
inductive CrcAlgorithm where
  | family (f : CrcFamily)
  | pinned
  deriving DecidableEq, Repr

/-- FREE VALUE (log entry 3): CRC_INIT of the pinned algorithm; nothing constrains it (R9, R91). -/
opaque Config.crcInit : U16

/-- FREE VALUE (log entry 3): crc_upd of the pinned algorithm, total and pure (R9, R92). -/
opaque Config.crcUpd : U16 → Byte → U16

/-- FREE VALUE (log entry 3): crc_fin of the pinned algorithm, total and pure (R9, R92). -/
opaque Config.crcFin : U16 → U16

/-- FREE VALUE (log entry 2): START of the instance `State.reset` starts; nothing constrains it (R9, U2). -/
opaque Config.startMarker : Byte

/-- FREE VALUE (log entry 2): END of that instance (R9, U2). -/
opaque Config.endMarker : Byte

/-- FREE VALUE (log entry 2): ESC of that instance (R9, U2). -/
opaque Config.escMarker : Byte

/-- FREE VALUE (log entry 2): by how much CAP of that instance exceeds 3, the least R9 allows (U4, U5). -/
opaque Config.capBeyondThree : Nat

/-- The parameters of an instance (R9), fixed for its life, and whether they meet R9's constraints: the markers are
pairwise distinct (D2) and CAP is at least 3 (D5). The model refuses any other configuration (U3, U5). `valid` is
settled with the instance and is no parameter of its own: `valid_eq` says what it is. -/
structure Params where
  startMarker : Byte
  endMarker   : Byte
  escMarker   : Byte
  cap         : Nat
  crc         : CrcAlgorithm
  valid       : Bool
  valid_eq    : valid = (startMarker != endMarker && startMarker != escMarker && endMarker != escMarker
                  && decide (3 ≤ cap))
  deriving DecidableEq, Repr

/-- The instance with the given parameters. -/
def Params.make (startMarker endMarker escMarker : Byte) (cap : Nat) (crc : CrcAlgorithm) : Params :=
  { startMarker, endMarker, escMarker, cap, crc, valid := _, valid_eq := rfl }

end Sys2Proof
end

