-- ==== Sys2Proof/Machine/Instance.lean ====
section
/-! DEFINITION. The marker test of 00_scope.md R15, the instance that `State.reset` starts, of which nothing but R9 is
known, and the reference instance of R11, which is for vectors alone. -/

namespace Sys2Proof

/-- `is_marker(b)` of R15. -/
def Params.isMarker (p : Params) (b : Byte) : Bool :=
  b == p.startMarker || b == p.endMarker || b == p.escMarker

/-- PRESUMED (log entry 2): the CRC of the reference instance (R11), general knowledge and not in the source. -/
def Config.referenceCrc : CrcFamily :=
  { poly := 0x1021#16, init := 0x0000#16, reflect := false, xorOut := 0x0000#16 }

/-- PRESUMED (log entry 2): the reference instance of R11 with a capacity of the caller's choice (R11 gives CAP
no reference value). -/
def Config.reference (cap : Nat) : Params :=
  Params.make 0x01#8 0x04#8 0x10#8 cap (.family Config.referenceCrc)

/-- The instance whose numbers spec/opcode_table.json's DEC-byte rows carry (their reference_instance entries), for
reading a number of the table and nothing else; its capacity plays no part in decoding (log entry 13). -/
def Config.tableInstance : Params := Config.reference 3

/-- R9's constraint on the three free markers (D2). -/
def Config.markersDistinct : Bool :=
  Config.startMarker != Config.endMarker && Config.startMarker != Config.escMarker
    && Config.endMarker != Config.escMarker

/-- A free marker, or `other` where the free markers would break R9. -/
def Config.marker (free other : Byte) : Byte := if Config.markersDistinct then free else other

/-- Whatever the free values are, they make a configuration of the block (R9). -/
theorem Config.instance_valid :
    true = (Config.marker Config.startMarker 0x00#8 != Config.marker Config.endMarker 0x01#8
      && Config.marker Config.startMarker 0x00#8 != Config.marker Config.escMarker 0x02#8
      && Config.marker Config.endMarker 0x01#8 != Config.marker Config.escMarker 0x02#8
      && decide (3 ≤ Config.capBeyondThree + 3)) := by
  cases h : Config.markersDistinct
  · simp [Config.marker, h]
  · simp only [Config.marker, h, if_true]
    rw [show decide (3 ≤ Config.capBeyondThree + 3) = true by simp, Bool.and_true]
    exact h.symm

/-- The instance `State.reset` starts (log entry 2): any instance of R9. Its markers are the free values of
`Config`, kept pairwise distinct, its capacity is any of at least 3, and its CRC is the pinned algorithm. R11: the
model hard-codes no instance. -/
def Config.instanceParams : Params :=
  { startMarker := Config.marker Config.startMarker 0x00#8,
    endMarker := Config.marker Config.endMarker 0x01#8,
    escMarker := Config.marker Config.escMarker 0x02#8,
    cap := Config.capBeyondThree + 3, crc := .pinned, valid := true, valid_eq := Config.instance_valid }

end Sys2Proof
end

