-- ==== Sys2Proof/Syntax.lean ====
section
/-! DEFINITION. The operations (instructions, 00_scope.md R19) and the port words that spell them
(30_encoding.md R71, R72; spec/opcode_table.json). -/

namespace Sys2Proof

/-- One constructor per row of spec/opcode_table.json, in the table's order. The first five are the decoder's
byte classes (R65), the rest the eight operations at the ports (R71). -/
inductive Instr where
  | decLit (b : Byte)
  | decStart
  | decEnd
  | decEsc
  | decData (b : Byte)
  | crcClr
  | crcUpd (b : Byte)
  | crcRd
  | encBegin
  | encPut (b : Byte)
  | encEnd
  | feed (b : Byte)
  | reset
  deriving DecidableEq, Repr

/-- The five classes of a received byte (R65). -/
inductive ByteClass where
  | lit
  | start
  | finish
  | escape
  | data
  deriving DecidableEq, Repr

/-- The three units (R13). -/
inductive BlockUnit where
  | crc
  | enc
  | dec
  deriving DecidableEq, Repr

/-- The unit an operation belongs to; `none` for RESET, which acts on all three (R71, R190). -/
def Instr.unit : Instr → Option BlockUnit
  | .decLit _ | .decStart | .decEnd | .decEsc | .decData _ | .feed _ => some .dec
  | .crcClr | .crcUpd _ | .crcRd => some .crc
  | .encBegin | .encPut _ | .encEnd => some .enc
  | .reset => none

/-- A word on one port, in the table's bit order (strobes first, data byte last, R72). The port is named by the
constructor, because the table's words carry no unit selector.
`decByte`: the 9-bit pair of rx_esc (bit 8) and b (bits 7:0), DEC's own sub-decode (R65).
`crc`: clr (9), upd (8), upd_data (7:0). `enc`: begin (10), put (9), end (8), put_data (7:0).
`dec`: feed (8), rx_data (7:0). `reset`: reset (0). -/
inductive PortWord where
  | decByte (w : BitVec 9)
  | crc (w : BitVec 10)
  | enc (w : BitVec 11)
  | dec (w : BitVec 9)
  | reset (w : BitVec 1)
  deriving DecidableEq, Repr

end Sys2Proof
end

