-- ==== Sys2Proof/WellFormed.lean ====
section
/-! DEFINITION. Which operation terms are spellings the block has (30_encoding.md R65, R71). -/

namespace Sys2Proof

/-- Every byte is a legal operand of every operation (R96, R115, R130), save that DEC.DATA carries a byte that
is none of the three markers (R65, row 5). -/
def Instr.wellFormed (p : Params) : Instr → Bool
  | .decData b => !p.isMarker b
  | .decLit _ | .decStart | .decEnd | .decEsc => true
  | .crcClr | .crcUpd _ | .crcRd => true
  | .encBegin | .encPut _ | .encEnd => true
  | .feed _ | .reset => true

end Sys2Proof
end

