-- ==== Sys2Proof/Decode.lean ====
section
/-! DEFINITION. From a port word to an operation and back (30_encoding.md R65, R71, R72; opcode_table.json). -/

namespace Sys2Proof

/-- Why a port word names no operation: no strobe of the unit is active, or more than one is (R72). -/
inductive DecodeError where
  | noStrobe
  | twoStrobes
  deriving DecidableEq, Repr

/-- R65: the class of a received byte, by the pair of rx_esc and b, rows tested in the order of the table. -/
def classify (p : Params) (esc : Bool) (b : Byte) : ByteClass :=
  if esc then .lit
  else if b = p.startMarker then .start
  else if b = p.endMarker then .finish
  else if b = p.escMarker then .escape
  else .data

/-- The table row of a class, with its operand. -/
def classInstr (c : ByteClass) (b : Byte) : Instr :=
  match c with
  | .lit => .decLit b
  | .start => .decStart
  | .finish => .decEnd
  | .escape => .decEsc
  | .data => .decData b

/-- The DEC-byte rows: total, every pair has a class (R67). -/
def decodeDecByte (p : Params) (w : BitVec 9) : Instr :=
  classInstr (classify p (w.getLsbD 8) (w.extractLsb' 0 8)) (w.extractLsb' 0 8)

/-- The CRC port (R72). The word without a strobe is CRC.RD: the output is always shown (R97 and the table's
remark). -/
def decodeCrc (w : BitVec 10) : Except DecodeError Instr :=
  match w.getLsbD 9, w.getLsbD 8 with
  | true, false => .ok .crcClr
  | false, true => .ok (.crcUpd (w.extractLsb' 0 8))
  | false, false => .ok .crcRd
  | true, true => .error .twoStrobes

/-- The ENC input port (R72). -/
def decodeEnc (w : BitVec 11) : Except DecodeError Instr :=
  match w.getLsbD 10, w.getLsbD 9, w.getLsbD 8 with
  | true, false, false => .ok .encBegin
  | false, true, false => .ok (.encPut (w.extractLsb' 0 8))
  | false, false, true => .ok .encEnd
  | false, false, false => .error .noStrobe
  | true, true, false => .error .twoStrobes
  | true, false, true => .error .twoStrobes
  | false, true, true => .error .twoStrobes
  | true, true, true => .error .twoStrobes

/-- The DEC input port (R72). -/
def decodeDec (w : BitVec 9) : Except DecodeError Instr :=
  if w.getLsbD 8 then .ok (.feed (w.extractLsb' 0 8)) else .error .noStrobe

/-- The reset port (R72). -/
def decodeReset (w : BitVec 1) : Except DecodeError Instr :=
  if w.getLsbD 0 then .ok .reset else .error .noStrobe

/-- The operation a port word names in an instance with parameters `p`. Total; rejects by name. Don't-care bits
are ignored (log entry 15). -/
def decode (p : Params) : PortWord → Except DecodeError Instr
  | .decByte w => .ok (decodeDecByte p w)
  | .crc w => decodeCrc w
  | .enc w => decodeEnc w
  | .dec w => decodeDec w
  | .reset w => decodeReset w

/-- The word of an operation, from the same table; don't-care bits are written 0 (log entry 15). -/
def encodeWord (p : Params) : Instr → PortWord
  | .decLit b => .decByte (1#1 ++ b)
  | .decStart => .decByte (0#1 ++ p.startMarker)
  | .decEnd => .decByte (0#1 ++ p.endMarker)
  | .decEsc => .decByte (0#1 ++ p.escMarker)
  | .decData b => .decByte (0#1 ++ b)
  | .crcClr => .crc (0b10#2 ++ 0#8)
  | .crcUpd b => .crc (0b01#2 ++ b)
  | .crcRd => .crc (0b00#2 ++ 0#8)
  | .encBegin => .enc (0b100#3 ++ 0#8)
  | .encPut b => .enc (0b010#3 ++ b)
  | .encEnd => .enc (0b001#3 ++ 0#8)
  | .feed b => .dec (1#1 ++ b)
  | .reset => .reset 1#1

/-- The port word of a table word of `nbits` bits. The table's words name no unit, so one number can stand for
rows of several ports; log entry 13 fixes the reading: an exact width of 9, 10 or 11 bits is the DEC-byte, CRC
or ENC format, one bit (or one byte) is the reset port, and in 16 bits the first row in the table's order that
matches decides (DEC-byte below 200H, then CRC, then ENC). -/
def tablePortWord (nbits w : Nat) : Option PortWord :=
  if nbits = 1 ∨ nbits = 8 then (if w < 2 then some (.reset (BitVec.ofNat 1 w)) else none)
  else if nbits = 9 then (if w < 0x200 then some (.decByte (BitVec.ofNat 9 w)) else none)
  else if nbits = 10 then (if w < 0x400 then some (.crc (BitVec.ofNat 10 w)) else none)
  else if nbits = 11 then (if w < 0x800 then some (.enc (BitVec.ofNat 11 w)) else none)
  else if w < 0x200 then some (.decByte (BitVec.ofNat 9 w))
  else if w < 0x400 then some (.crc (BitVec.ofNat 10 w))
  else if w < 0x800 then some (.enc (BitVec.ofNat 11 w))
  else none

/-- The operation read from a table word, in an instance with parameters `p` (R9). -/
def decodeTableWordIn (p : Params) (nbits w : Nat) : Option Instr :=
  match tablePortWord nbits w with
  | none => none
  | some pw =>
    match decode p pw with
    | .ok i => some i
    | .error _ => none

/-- The operation read from a bare number of spec/opcode_table.json. The table writes its DEC-byte words as numbers in
its reference_instance entries, vectors of R11's instance, so they are read there (log entry 13). -/
def decodeTableWord (nbits w : Nat) : Option Instr := decodeTableWordIn Config.tableInstance nbits w

/-- `pw`, a port word written in the instance `q`, as an instance `p` spells the same operation. Only a DEC-byte word
depends on the instance (R65). -/
def respell (q p : Params) (pw : PortWord) : PortWord :=
  match pw with
  | .decByte w => encodeWord p (decodeDecByte q w)
  | .crc _ | .enc _ | .dec _ | .reset _ => pw

end Sys2Proof
end

