-- ==== Sys2Proof/Machine/Operands.lean ====
section
/-! DEFINITION. The operand forms of the block: a byte, stuffed when it is sent, and the 16-bit CRC split into two
bytes and assembled from two (20_memory.md R43, 30_encoding.md R62, R64). -/

namespace Sys2Proof.Machine

/-- `stuff(b)` (R62): an escape marker before a marker-valued byte, the byte itself unchanged. -/
def stuff (p : Params) (b : Byte) : List Byte :=
  if p.isMarker b then [p.escMarker, b] else [b]

/-- `stuff` over a body, in order (R60, R110). -/
def stuffAll (p : Params) (body : List Byte) : List Byte :=
  body.flatMap (stuff p)

/-- `c[7:0]`, sent first (R43). -/
def crcLow (c : U16) : Byte := c.extractLsb' 0 8

/-- `c[15:8]`, sent second (R43). -/
def crcHigh (c : U16) : Byte := c.extractLsb' 8 8

/-- The received CRC (R64): the byte at the higher index in bits 15:8, the one at the lower index in bits 7:0. -/
def crcOfBytes (hi lo : Byte) : U16 := hi ++ lo

end Sys2Proof.Machine
end

