-- ==== Sys2Proof/Machine/Crc16.lean ====
section
/-! DEFINITION. The CRC16 computation (40_crc16.md R90 to R94): the shape of R92 over the three parameters, and
the polynomial family of R94 that gives them from four numbers. -/

namespace Sys2Proof.Machine

/-- `rev16` of R94: the order of the 16 bits reversed. -/
def rev16 (v : U16) : U16 := v.reverse

/-- One bit step, most significant bit first (R94, CRC_REFLECT = false). -/
def crcStepMsb (poly a : U16) : U16 :=
  if a.getLsbD 15 then (a <<< 1) ^^^ poly else a <<< 1

/-- One bit step, least significant bit first (R94, CRC_REFLECT = true). -/
def crcStepLsb (poly a : U16) : U16 :=
  if a.getLsbD 0 then (a >>> 1) ^^^ rev16 poly else a >>> 1

/-- `f` eight times, one application per bit of the byte (R94). -/
def eightTimes (f : U16 → U16) (a : U16) : U16 :=
  f (f (f (f (f (f (f (f a)))))))

/-- `crc_upd` of the polynomial family (R94). -/
def familyUpd (c : CrcFamily) (a : U16) (b : Byte) : U16 :=
  if c.reflect then eightTimes (crcStepLsb c.poly) (a ^^^ b.zeroExtend 16)
  else eightTimes (crcStepMsb c.poly) (a ^^^ (b.zeroExtend 16 <<< 8))

/-- CRC_INIT (R9, R94). -/
def crcInit : CrcAlgorithm → U16
  | .family c => c.init
  | .pinned => Config.crcInit

/-- `crc_upd` (R9, R94). -/
def crcUpd : CrcAlgorithm → U16 → Byte → U16
  | .family c => familyUpd c
  | .pinned => Config.crcUpd

/-- `crc_fin` (R9, R94). -/
def crcFin : CrcAlgorithm → U16 → U16
  | .family c => fun a => a ^^^ c.xorOut
  | .pinned => Config.crcFin

/-- `fold` of R92, started from any accumulator. -/
def crcFold (alg : CrcAlgorithm) (a : U16) (bytes : List Byte) : U16 :=
  bytes.foldl (crcUpd alg) a

/-- `crc16` (R90, R92). -/
def crc16 (alg : CrcAlgorithm) (bytes : List Byte) : U16 :=
  crcFin alg (crcFold alg (crcInit alg) bytes)

end Sys2Proof.Machine
end

