-- ==== Sys2Proof/Machine/State.lean ====
section
/-! DEFINITION. The state of the block (10_state.md R20 to R27, R34), the reasons a step can stop, and the state
after power-on. INVENTORY.md's State section lists every field with its rule. -/

namespace Sys2Proof.Machine

/-- `enc_state` (R22). -/
inductive EncState where
  | idle
  | body
  deriving DecidableEq, Repr

/-- The contents of rx_buf: pairs of index and byte, indices strictly rising, no entry equal to
`Memory.unwritten` (`Memory.wf` of Machine/Ops.lean). -/
abbrev Memory := List Host.Cell

/-- What a byte of rx_buf that nothing has written reads as. R24, R34 and U11 leave it unspecified and no rule
reads it. DESIGN CHOICE, unsafe (log entry 5). -/
def Memory.unwritten : Byte := 0x00#8

/-- The result of one operation (R71): none (also FEED's `None`), the 16-bit value of CRC.RD (R97), or a
delivered payload (R165). -/
inductive Output where
  | none
  | crc (v : U16)
  | frame (payload : List Byte)
  deriving DecidableEq, Repr

/-- The six elements of R20, the transmit history and step result of R27, and two fields of the model's own. -/
structure State where
  /-- `crc_acc` (R21). -/
  crcAcc : U16
  /-- `enc_state` (R22). -/
  encState : EncState
  /-- `enc_crc` (R23). -/
  encCrc : U16
  /-- `rx_buf` (R24). -/
  rxBuf : Memory
  /-- `rx_len` (R25). -/
  rxLen : Nat
  /-- `rx_esc` (R26). -/
  rxEsc : Bool
  /-- The bytes emitted so far, oldest first (R27 (a)); never read back. -/
  tx : List Byte
  /-- The result of the operation that led to this state and of no other (R27 (b), R165; log entry 8). -/
  output : Output
  /-- MODEL'S OWN: the parameters of R9, which no operation changes (log entry 1). -/
  params : Params
  /-- MODEL'S OWN: the port words the host is still to issue, next first (log entry 6). -/
  issued : List PortWord
  deriving DecidableEq, Repr

/-- Why the machine stops with a fault. -/
inductive Fault where
  /-- Raised by `memRead` and `memWrite` (Machine/Ops.lean) for an index outside 0..CAP-1, where R41 defines no
  access. Only states with rx_len above CAP, which no run reaches, get here. Safe (log entry 12). -/
  | rxIndexOutOfRange
  deriving DecidableEq, Repr

/-- Why an operation has no meaning. -/
inductive Refusal where
  /-- Raised by an arm of `exec` for an instruction without a meaning; no arm raises it now. Safe. -/
  | notModelled (mnemonic : String)
  /-- Raised by `configured` when the parameters break R9: two markers coincide or CAP is below 3. The spec
  refuses such a configuration (D2, D5, U3, U5). Safe. -/
  | badConfiguration
  /-- Raised by the three ENC meanings for a call out of order (R117, D12, U9). Safe. -/
  | encOutOfOrder
  /-- Raised by `runFetched` for a port word with two strobes of one unit (R72, D12, U10). Safe. -/
  | twoStrobes
  /-- Raised by the five byte-class meanings when the class's condition (R65) does not hold, so that no step of
  that class exists. Safe (log entry 10). -/
  | classCondition
  deriving DecidableEq, Repr

/-- The answer of a meaning. -/
abbrev StepOutcome := Host.Outcome State Fault Refusal

/-- Power-on (R191) of an instance with parameters `p`: the values of R34. `encCrc` is unspecified there:
DESIGN CHOICE zero, unsafe (log entry 4). -/
def State.powerOn (p : Params) : State :=
  { crcAcc := crcInit p.crc, encState := .idle, encCrc := 0x0000#16, rxBuf := [], rxLen := 0, rxEsc := false,
    tx := [], output := .none, params := p, issued := [] }

/-- The machine right after reset: power-on (R191, R34) of the instance `Config.instanceParams`, of whose parameters
only R9's constraints are known (R11; log entry 2). -/
def State.reset : State :=
  State.powerOn Config.instanceParams

end Sys2Proof.Machine
end

