-- ==== Sys2Proof/Machine/Ops.lean ====
section
/-! DEFINITION. The named operations the meanings share: rx_buf's primitives (20_memory.md R41), emitting (R27),
the result of a step (R165), the append with its guard (R131), the check at an end marker (R134), the port
outputs (R72), and fetching the host's next operation.

The block has no exception to take and none to return from (60_exceptions.md R160, R167): what stands in their
place is the silent drop, which writes nothing, and `deliver`. -/

namespace Sys2Proof.Machine

/-- The byte at index `a`. -/
def Memory.read : Memory → Nat → Byte
  | [], _ => Memory.unwritten
  | (k, v) :: m, a => if k = a then v else Memory.read m a

/-- `m` with byte `b` at index `a`, in canonical form: writing what an unlisted index reads as removes the entry. -/
def Memory.write : Memory → Nat → Byte → Memory
  | [], a, b => if b = Memory.unwritten then [] else [(a, b)]
  | (k, v) :: m, a, b =>
    if a < k then (if b = Memory.unwritten then (k, v) :: m else (a, b) :: (k, v) :: m)
    else if a = k then (if b = Memory.unwritten then m else (a, b) :: m)
    else (k, v) :: Memory.write m a b

/-- Indices strictly rising from `lo` on, and no entry that an unlisted index already reads as. -/
def Memory.wfFrom : Nat → Memory → Bool
  | _, [] => true
  | lo, (k, v) :: m => decide (lo ≤ k) && (v != Memory.unwritten) && Memory.wfFrom (k + 1) m

/-- The canonical form of rx_buf's contents. -/
def Memory.wf (m : Memory) : Bool := Memory.wfFrom 0 m

/-- `MemRead(i, 1)` (R41), defined for `i < CAP` only. -/
def memRead (s : State) (i : Nat) : Except Fault Byte :=
  if i < s.params.cap then .ok (s.rxBuf.read i) else .error .rxIndexOutOfRange

/-- `MemWrite(i, 1, b)` (R41), defined for `i < CAP` only. -/
def memWrite (s : State) (i : Nat) (b : Byte) : Except Fault State :=
  if i < s.params.cap then .ok { s with rxBuf := s.rxBuf.write i b } else .error .rxIndexOutOfRange

/-- `rx_buf[i..i+n)`, one `MemRead` per byte (R47, R134). -/
def memReads (s : State) : Nat → Nat → Except Fault (List Byte)
  | _, 0 => .ok []
  | i, n + 1 =>
    match memRead s i with
    | .error f => .error f
    | .ok b =>
      match memReads s (i + 1) n with
      | .error f => .error f
      | .ok bs => .ok (b :: bs)

/-- `rx_buf[0..rx_len)`: the bytes accumulated (R24), a view for statements that no operation uses. -/
def State.held (s : State) : List Byte := (List.range s.rxLen).map s.rxBuf.read

/-- `emit` for each byte of a list, in order (R15, R27): it always succeeds (D23). -/
def emit (s : State) (bytes : List Byte) : State := { s with tx := s.tx ++ bytes }

/-- The step's result (R15, R165): an operation answers with exactly one. -/
def answer (s : State) (o : Output) : State := { s with output := o }

/-- The gate every meaning stands behind: an instance whose parameters break R9 is refused (D2, D5, U3, U5; log
entry 11). -/
def configured (s : State) (k : StepOutcome) : StepOutcome :=
  if s.params.valid then k else .refused .badConfiguration

/-- Where a state computation ends: in the next state with result none, or in the fault it met. -/
def finish : Except Fault State → StepOutcome
  | .ok t => .next (answer t .none)
  | .error f => .fault f

/-- The append with the buffer-full guard (R131): with rx_len = CAP the buffer is emptied and the byte is
discarded too (D6); else the byte is stored at index rx_len. -/
def append (s : State) (b : Byte) : Except Fault State :=
  if s.rxLen = s.params.cap then .ok { s with rxLen := 0 }
  else
    match memWrite s s.rxLen b with
    | .error f => .error f
    | .ok t => .ok { t with rxLen := t.rxLen + 1 }

/-- What an end marker answers (R134): nothing for rx_len of at most 2; else the payload if its recomputed CRC
equals the last two bytes, low byte at the lower index. -/
def endCheck (s : State) : Except Fault Output :=
  if 2 < s.rxLen then
    match memReads s 0 (s.rxLen - 2), memRead s (s.rxLen - 1), memRead s (s.rxLen - 2) with
    | .ok payload, .ok hi, .ok lo =>
      if crc16 s.params.crc payload = crcOfBytes hi lo then .ok (.frame payload) else .ok .none
    | .error f, _, _ => .error f
    | .ok _, .error f, _ => .error f
    | .ok _, .ok _, .error f => .error f
  else .ok .none

/-- `crc[15:0]` of the CRC port, shown always (R72, R97). -/
def State.crcPort (s : State) : U16 := crcFin s.params.crc s.crcAcc

/-- `frame_data` of the DEC output port: the payload, in a step that delivers (R72, R165). DESIGN CHOICE (log entry
18): in any other step, where R72 gives it no meaning, it shows no value. -/
def State.frameData (s : State) : Option (List Byte) :=
  match s.output with
  | .frame payload => some payload
  | .crc _ | .none => none

/-- `frame_valid` of the DEC output port: true exactly in a step that delivers (R72). -/
def State.frameValid (s : State) : Bool := s.frameData.isSome

/-- `frame_len` of the DEC output port: rx_len - 2 in a step that delivers (R72, R165). DESIGN CHOICE (log entry 18):
in any other step, where R72 gives it no meaning and R33 hides rx_len, it shows no value. -/
def State.frameLen (s : State) : Option Nat := s.frameData.map fun _ => s.rxLen - 2

/-- The host issues nothing, or drives a port with no strobe: nothing changes, and no result is shown (R13, R165;
log entry 7). -/
def idleStep (s : State) : StepOutcome := configured s (.next (answer s .none))

/-- The host's next port word, taken from the list of what it is to issue (log entry 6). -/
def fetch (s : State) : Option (PortWord × State) :=
  match s.issued with
  | [] => none
  | w :: rest => some (w, { s with issued := rest })

/-- What becomes of a fetched port word, given how operations run: the operation it names runs; a word with no
strobe is idle; two strobes of one unit are refused (R72). -/
def runFetched (run : Instr → State → StepOutcome) (w : PortWord) (s : State) : StepOutcome :=
  match decode s.params w with
  | .ok i => run i s
  | .error .noStrobe => idleStep s
  | .error .twoStrobes => .refused .twoStrobes

/-- The pair of a DEC-byte word holds rx_esc itself (bit 8, opcode_table.json): placing such a word sets the flag
to that bit. No other port word says anything of the state (log entry 13). -/
def placeEsc (w : PortWord) (s : State) : State :=
  match w with
  | .decByte v => { s with rxEsc := v.getLsbD 8 }
  | .crc _ | .enc _ | .dec _ | .reset _ => s

/-- `w` placed where `fetch` finds it next. -/
def placeWord (w : PortWord) (s : State) : State :=
  { placeEsc w s with issued := w :: s.issued }

end Sys2Proof.Machine
end

