-- ==== Sys2Proof/Machine/CrcUnit.lean ====
section
/-! DEFINITION. The CRC unit: CRC.CLR, CRC.UPD, CRC.RD (40_crc16.md R95 to R97). -/

namespace Sys2Proof.Machine

/-- CRC.CLR (R95). -/
def execCrcClr (s : State) : StepOutcome :=
  configured s (.next (answer { s with crcAcc := crcInit s.params.crc } .none))

/-- CRC.UPD b (R96): no byte value is special here. -/
def execCrcUpd (b : Byte) (s : State) : StepOutcome :=
  configured s (.next (answer { s with crcAcc := crcUpd s.params.crc s.crcAcc b } .none))

/-- CRC.RD (R97): the value the port always shows; nothing is written. -/
def execCrcRd (s : State) : StepOutcome :=
  configured s (.next (answer s (.crc s.crcPort)))

end Sys2Proof.Machine
end

