-- ==== Sys2Proof/Machine/Flags.lean ====
section
/-! DEFINITION. The block's one flag, rx_esc (10_state.md R26, R31): set by an unescaped escape marker, cleared by
the next byte fed and by RESET. There are no condition codes. -/

namespace Sys2Proof.Machine

/-- The next byte fed is literal (R26, R135). -/
def setEsc (s : State) : State := { s with rxEsc := true }

/-- The next byte fed is classified by its value (R26, R132). -/
def clearEsc (s : State) : State := { s with rxEsc := false }

end Sys2Proof.Machine
end

