-- ==== Sys2Proof/Machine/DecUnit.lean ====
section
/-! DEFINITION. The frame decoder (42_decoder.md R130 to R138): what each byte class does, the five class rows of
the table, each behind its condition (R65), and FEED, which dispatches on the class. -/

namespace Sys2Proof.Machine

/-- DEC.LIT's effect (R132): append, then clear the flag, also when the append overflows (D6). -/
def litEffect (b : Byte) (s : State) : StepOutcome := finish ((append s b).map clearEsc)

/-- DEC.START's effect (R133): the bytes of rx_buf are not cleared, only made unreachable. -/
def startEffect (s : State) : StepOutcome := finish (.ok { s with rxLen := 0 })

/-- DEC.END's effect (R134, R138): an answer, and no state change. -/
def endEffect (s : State) : StepOutcome :=
  match endCheck s with
  | .ok o => .next (answer s o)
  | .error f => .fault f

/-- DEC.ESC's effect (R135). -/
def escEffect (s : State) : StepOutcome := finish (.ok (setEsc s))

/-- DEC.DATA's effect (R136): append, and the flag, already clear, is cleared. -/
def dataEffect (b : Byte) (s : State) : StepOutcome := finish ((append s b).map clearEsc)

/-- A class row runs only where the class's condition holds (R65); elsewhere no step of that class exists (log
entry 10). -/
def inClass (c : ByteClass) (b : Byte) (s : State) (k : StepOutcome) : StepOutcome :=
  configured s (if classify s.params s.rxEsc b = c then k else .refused .classCondition)

/-- DEC.LIT b (R132). -/
def execDecLit (b : Byte) (s : State) : StepOutcome := inClass .lit b s (litEffect b s)

/-- DEC.START (R133). -/
def execDecStart (s : State) : StepOutcome := inClass .start s.params.startMarker s (startEffect s)

/-- DEC.END (R134). -/
def execDecEnd (s : State) : StepOutcome := inClass .finish s.params.endMarker s (endEffect s)

/-- DEC.ESC (R135). -/
def execDecEsc (s : State) : StepOutcome := inClass .escape s.params.escMarker s (escEffect s)

/-- DEC.DATA b (R136). -/
def execDecData (b : Byte) (s : State) : StepOutcome := inClass .data b s (dataEffect b s)

/-- FEED b (R130): legal in every state, dispatching on rx_esc first and then on the byte's value. -/
def execFeed (b : Byte) (s : State) : StepOutcome :=
  configured s
    (match classify s.params s.rxEsc b with
     | .lit => litEffect b s
     | .start => startEffect s
     | .finish => endEffect s
     | .escape => escEffect s
     | .data => dataEffect b s)

end Sys2Proof.Machine
end

