-- ==== Sys2Proof/Machine/EncUnit.lean ====
section
/-! DEFINITION. The frame encoder: ENC.BEGIN, ENC.PUT, ENC.END (41_encoder.md R114 to R117). -/

namespace Sys2Proof.Machine

/-- An encoder call is legal in one encoder state and refused in the other (R117, D12). -/
def inEncState (e : EncState) (s : State) (t : State) : StepOutcome :=
  configured s (if s.encState = e then .next (answer t .none) else .refused .encOutOfOrder)

/-- ENC.BEGIN (R114): the start marker, never stuffed. -/
def execEncBegin (s : State) : StepOutcome :=
  inEncState .idle s
    { emit s [s.params.startMarker] with encCrc := crcInit s.params.crc, encState := .body }

/-- ENC.PUT b (R115): the CRC is updated with b itself, never with an inserted escape marker. -/
def execEncPut (b : Byte) (s : State) : StepOutcome :=
  inEncState .body s
    { emit s (stuff s.params b) with encCrc := crcUpd s.params.crc s.encCrc b }

/-- The bytes ENC.END emits for the CRC value `c` (R116): low byte, high byte, each stuffed, then the end marker
bare. -/
def closingBytes (p : Params) (c : U16) : List Byte :=
  stuff p (crcLow c) ++ stuff p (crcHigh c) ++ [p.endMarker]

/-- ENC.END (R116): enc_crc is left as it is. -/
def execEncEnd (s : State) : StepOutcome :=
  inEncState .body s
    { emit s (closingBytes s.params (crcFin s.params.crc s.encCrc)) with encState := .idle }

end Sys2Proof.Machine
end

