-- ==== Sys2Proof/Machine/ResetUnit.lean ====
section
/-! DEFINITION. RESET (70_reset_and_hazards.md R190, R192). -/

namespace Sys2Proof.Machine

/-- RESET (R190): four writes; enc_crc and the bytes of rx_buf are left as they are, nothing is emitted, and bytes
already emitted stay in tx (R192; log entry 9). -/
def execReset (s : State) : StepOutcome :=
  configured s
    (.next (answer
      (clearEsc { s with crcAcc := crcInit s.params.crc, encState := .idle, rxLen := 0 }) .none))

end Sys2Proof.Machine
end

