-- ==== Sys2Proof/Machine/Dispatch.lean ====
section
/-! DEFINITION. The one dispatch over the operations, one arm per constructor of Instr. -/

namespace Sys2Proof.Machine

def exec (i : Instr) (s : State) : Host.Outcome State Fault Refusal :=
  match i with
  | .decLit b => Sys2Proof.Machine.execDecLit b s
  | .decStart => Sys2Proof.Machine.execDecStart s
  | .decEnd => Sys2Proof.Machine.execDecEnd s
  | .decEsc => Sys2Proof.Machine.execDecEsc s
  | .decData b => Sys2Proof.Machine.execDecData b s
  | .crcClr => Sys2Proof.Machine.execCrcClr s
  | .crcUpd b => Sys2Proof.Machine.execCrcUpd b s
  | .crcRd => Sys2Proof.Machine.execCrcRd s
  | .encBegin => Sys2Proof.Machine.execEncBegin s
  | .encPut b => Sys2Proof.Machine.execEncPut b s
  | .encEnd => Sys2Proof.Machine.execEncEnd s
  | .feed b => Sys2Proof.Machine.execFeed b s
  | .reset => Sys2Proof.Machine.execReset s

end Sys2Proof.Machine
end

