-- ==== Sys2Proof/Machine/Step.lean ====
section
/-! DEFINITION. One step: the operation of the host's next port word, or an idle step when it issues nothing
(00_scope.md R13, R16). -/

namespace Sys2Proof.Machine

/-- One step of the block. -/
def step (s : State) : Host.Outcome State Fault Refusal :=
  match fetch s with
  | none => idleStep s
  | some (w, t) => runFetched exec w t

/-- `s` with the table word `w` of `nbits` bits placed as the host's next port word. A DEC-byte word, which the
table writes in its reference instance, is placed as the machine's own instance spells that operation: the parameters
of `s` stay (R9, R11; log entries 6 and 13). -/
def State.withFetchWord (s : State) (nbits w : Nat) : State :=
  match tablePortWord nbits w with
  | none => s
  | some pw => placeWord (respell Config.tableInstance s.params pw) s

end Sys2Proof.Machine
end

