-- ==== Sys2Proof/Machine/Framing.lean ====
section
/-! DEFINITION. The whole-payload functions of the source as the spec writes them: the body (R61), `encode`
(R110), and the check of an accumulated body at an end marker (R134) as a function on a list. -/

namespace Sys2Proof.Machine

/-- The body (R61): the payload, then its CRC low byte and high byte. -/
def frameBody (p : Params) (payload : List Byte) : List Byte :=
  payload ++ [crcLow (crc16 p.crc payload), crcHigh (crc16 p.crc payload)]

/-- `encode` (R60, R110). -/
def encodeFrame (p : Params) (payload : List Byte) : List Byte :=
  [p.startMarker] ++ stuffAll p (frameBody p payload) ++ [p.endMarker]

/-- How many bytes of a body are marker-valued: the `m` of R63 and R112. -/
def markerCount (p : Params) (body : List Byte) : Nat :=
  body.countP p.isMarker

end Sys2Proof.Machine
end

