-- ==== Sys2Proof/Machine/ListDecoder.lean ====
section
/-! DEFINITION. DEC with rx_buf and rx_len as ONE list of at most CAP bytes, as 10_state.md R24 and 20_memory.md
R41 allow a model to represent them. Written from R131 to R136 over the list, it is the clear version against
which the machine's DEC, over a memory and a length, is stated to be right. -/

namespace Sys2Proof.Machine

/-- The accumulated bytes and the flag. -/
structure ListDec where
  buf : List Byte
  esc : Bool
  deriving DecidableEq, Repr

/-- The append with its guard (R131) on the list. -/
def listAppend (p : Params) (buf : List Byte) (b : Byte) : List Byte :=
  if buf.length = p.cap then [] else buf ++ [b]

/-- The check at an end marker (R134) on the list: the body without its last two bytes, if they are its CRC and
it is not empty. -/
def listCheck (p : Params) (buf : List Byte) : Option (List Byte) :=
  let payload := buf.take (buf.length - 2)
  let trailer := buf.drop (buf.length - 2)
  if payload ≠ [] ∧ trailer = [crcLow (crc16 p.crc payload), crcHigh (crc16 p.crc payload)] then some payload
  else none

/-- One FEED (R130) on the list: the next decoder and what it delivers. -/
def listFeed (p : Params) (d : ListDec) (b : Byte) : ListDec × Option (List Byte) :=
  match classify p d.esc b with
  | .lit => ({ buf := listAppend p d.buf b, esc := false }, none)
  | .start => ({ d with buf := [] }, none)
  | .finish => (d, listCheck p d.buf)
  | .escape => ({ d with esc := true }, none)
  | .data => ({ d with buf := listAppend p d.buf b }, none)

/-- The list decoder a state holds. -/
def State.listDec (s : State) : ListDec := { buf := s.held, esc := s.rxEsc }

/-- The result of a FEED that delivers `d` (R130). -/
def feedOutput (d : Option (List Byte)) : Output :=
  match d with
  | some payload => .frame payload
  | none => .none

end Sys2Proof.Machine
end

