-- ==== Sys2Proof/Machine/Pseudo.lean ====
section
/-! DEFINITION. Sequences of operations (00_scope.md R17), the pseudo-operations of 30_encoding.md R73, and the
`decode` of 42_decoder.md R144. -/

namespace Sys2Proof.Machine

/-- The operations in order, each from the state the one before left; answers the last state and every
operation's result, and stops where one has none. -/
def runOps : List Instr → State → Host.Outcome (State × List Output) Fault Refusal
  | [], s => .next (s, [])
  | i :: rest, s =>
    match exec i s with
    | .fault f => .fault f
    | .refused r => .refused r
    | .next t =>
      match runOps rest t with
      | .fault f => .fault f
      | .refused r => .refused r
      | .next (u, outs) => .next (u, t.output :: outs)

/-- `ENCODE p` (R73, R118). -/
def encodeOps (payload : List Byte) : List Instr :=
  [.encBegin] ++ payload.map .encPut ++ [.encEnd]

/-- `FEED* ...` (R73). -/
def feedOps (bytes : List Byte) : List Instr := bytes.map .feed

/-- `CRC16 [...]` (R73, R98). -/
def crcOps (bytes : List Byte) : List Instr :=
  [.crcClr] ++ bytes.map .crcUpd ++ [.crcRd]

/-- The payloads among results, in order. -/
def deliveries : List Output → List (List Byte)
  | [] => []
  | .frame payload :: outs => payload :: deliveries outs
  | .crc _ :: outs => deliveries outs
  | .none :: outs => deliveries outs

/-- The source's `decode` as R144 reads it: every byte fed in order to a DEC just out of power-on, and the frames
delivered, in order. -/
def decodeStream (p : Params) (bytes : List Byte) : List (List Byte) :=
  match runOps (feedOps bytes) (State.powerOn p) with
  | .next (_, outs) => deliveries outs
  | .fault _ => []
  | .refused _ => []

end Sys2Proof.Machine
end

