-- ==== Sys2Proof/Safety.lean ====
section
/-! DEFINITION. The words claims are stated in: the invariant of a run, what the host may issue (60_exceptions.md
R173), the labels of a FEED step (R161), where an operation stores, and when two states differ only where the spec
leaves bytes unspecified (10_state.md R34). -/

namespace Sys2Proof.Machine

/-- Every entry of rx_buf lies at an index below CAP (R24, R40). -/
def Memory.below (m : Memory) (cap : Nat) : Bool := m.all fun c => decide (c.1 < cap)

/-- A payload handed over has between 1 and CAP - 2 bytes (R146). -/
def Output.fits (o : Output) (cap : Nat) : Bool :=
  match o with
  | .frame payload => decide (1 ≤ payload.length ∧ payload.length + 2 ≤ cap)
  | .crc _ => true
  | .none => true

/-- What holds of every state a run reaches: the parameters are a configuration of the block (R9), rx_len is at
most CAP (R25), rx_buf is in canonical form with every index below CAP (R24), and a result fits (R146). -/
structure Inv (s : State) : Prop where
  valid : s.params.valid = true
  lenLe : s.rxLen ≤ s.params.cap
  canonical : s.rxBuf.wf = true
  indices : s.rxBuf.below s.params.cap = true
  outputFits : s.output.fits s.params.cap = true

/-- R173, R117: when the host may issue a port operation: encoder calls in order, the rest always. A class row
is no call of the host's; it is the sub-decode of a FEED and stands for one only where its condition holds (R65). -/
def mayIssue (i : Instr) (s : State) : Bool :=
  match i with
  | .encBegin => s.encState == .idle
  | .encPut _ | .encEnd => s.encState == .body
  | .decLit b => classify s.params s.rxEsc b == .lit
  | .decStart => classify s.params s.rxEsc s.params.startMarker == .start
  | .decEnd => classify s.params s.rxEsc s.params.endMarker == .finish
  | .decEsc => classify s.params s.rxEsc s.params.escMarker == .escape
  | .decData b => classify s.params s.rxEsc b == .data
  | .feed _ | .crcClr | .crcUpd _ | .crcRd | .reset => true

/-- The labels of R161; names for the reader, no output of the block carries them. -/
inductive FeedLabel where
  | append
  | overflow
  | resync
  | arm
  | dropShort
  | dropCrc
  | deliver
  deriving DecidableEq, Repr

/-- The label of `FEED b` in a state (R161), tests in the order of R168. -/
def feedLabel (s : State) (b : Byte) : FeedLabel :=
  match classify s.params s.rxEsc b with
  | .lit => if s.rxLen = s.params.cap then .overflow else .append
  | .data => if s.rxLen = s.params.cap then .overflow else .append
  | .start => .resync
  | .escape => .arm
  | .finish =>
    if s.rxLen ≤ 2 then .dropShort
    else if crc16 s.params.crc (s.held.take (s.rxLen - 2))
        = crcOfBytes (s.rxBuf.read (s.rxLen - 1)) (s.rxBuf.read (s.rxLen - 2)) then .deliver
    else .dropCrc

/-- The class a DEC operation runs as (R29, R65): a class row its own, FEED that of its byte. -/
def feedClass (i : Instr) (s : State) : Option ByteClass :=
  match i with
  | .decLit _ => some .lit
  | .decStart => some .start
  | .decEnd => some .finish
  | .decEsc => some .escape
  | .decData _ => some .data
  | .feed b => some (classify s.params s.rxEsc b)
  | .crcClr | .crcUpd _ | .crcRd | .encBegin | .encPut _ | .encEnd | .reset => none

/-- Whether the operation appends to rx_buf (R29: FEED of class DEC.LIT or DEC.DATA). -/
def appends (i : Instr) (s : State) : Bool :=
  feedClass i s == some .lit || feedClass i s == some .data

/-- The one index of rx_buf the operation stores to (R149): rx_len, for an append that finds room. -/
def storesAt (i : Instr) (s : State) : Option Nat :=
  if appends i s = true ∧ s.rxLen ≠ s.params.cap then some s.rxLen else none

/-- Nothing of the CRC unit has changed (R29). -/
def SameCrc (s t : State) : Prop := t.crcAcc = s.crcAcc

/-- Nothing of the encoder has changed, and nothing has been emitted (R29, R27). -/
def SameEnc (s t : State) : Prop := t.encState = s.encState ∧ t.encCrc = s.encCrc ∧ t.tx = s.tx

/-- Nothing of the decoder has changed, rx_buf byte for byte at every index (R29). -/
def SameDec (s t : State) : Prop :=
  t.rxLen = s.rxLen ∧ t.rxEsc = s.rxEsc ∧ ∀ a, t.rxBuf.read a = s.rxBuf.read a

/-- The parameters and what the host is still to issue have not changed (R9, R35). -/
def SameHost (s t : State) : Prop := t.params = s.params ∧ t.issued = s.issued

/-- The append of R131 as an effect from `s` to `t`: a full buffer is emptied and nothing stored; else `b` stands
at index rx_len, rx_len is one more, and every other index reads as before. -/
def AppendEffect (b : Byte) (s t : State) : Prop :=
  (s.rxLen = s.params.cap → t.rxLen = 0 ∧ ∀ a, t.rxBuf.read a = s.rxBuf.read a) ∧
  (s.rxLen ≠ s.params.cap → t.rxLen = s.rxLen + 1 ∧ t.rxBuf.read s.rxLen = b ∧
    ∀ a, a ≠ s.rxLen → t.rxBuf.read a = s.rxBuf.read a)

/-- Two states that differ at most where R34 and U11 leave a value unspecified: enc_crc outside a frame, and the
bytes of rx_buf at or above rx_len. -/
structure SameSpecified (s t : State) : Prop where
  crcAcc : t.crcAcc = s.crcAcc
  encState : t.encState = s.encState
  encCrc : s.encState = .body → t.encCrc = s.encCrc
  rxBuf : ∀ a, a < s.rxLen → t.rxBuf.read a = s.rxBuf.read a
  rxLen : t.rxLen = s.rxLen
  rxEsc : t.rxEsc = s.rxEsc
  tx : t.tx = s.tx
  output : t.output = s.output
  params : t.params = s.params
  issued : t.issued = s.issued

/-- Two answers alike up to the unspecified values: both next states of that kind, or the same stop. -/
def SameAnswer (x y : StepOutcome) : Prop :=
  match x, y with
  | .next s, .next t => SameSpecified s t
  | .fault f, .fault g => f = g
  | .refused r, .refused q => r = q
  | _, _ => False

/-- Everything but the result of the last operation: the block's state as it stands between operations (R27). -/
def State.settled (s : State) : State := { s with output := .none }

/-- The classes DEC gives the bytes of a stream, from a given flag (R65, R66): the scan of R112. -/
def scanClasses (p : Params) : Bool → List Byte → List ByteClass
  | _, [] => []
  | esc, b :: rest => classify p esc b :: scanClasses p (classify p esc b == .escape) rest

/-- The next state of an answer, if there is one. -/
def nextOf (x : StepOutcome) : Option State :=
  match x with
  | .next t => some t
  | .fault _ => none
  | .refused _ => none

/-- The refusal of an answer, if there is one. -/
def refusalOf (x : StepOutcome) : Option Refusal :=
  match x with
  | .refused r => some r
  | .next _ => none
  | .fault _ => none

end Sys2Proof.Machine
end

