-- ==== Sys2Proof/Certificates/Slice0/Obligations.lean ====
section
/-! DEFINITION. The statements for the provers, in the order of OBLIGATIONS.json. Each docstring names the rule it
formalises; "derived" marks a rule the spec itself derives or a choice of the model's, with its log entry. -/

open Sys2Proof Sys2Proof.Machine

/-! ## The CRC unit -/

/-- R95 (ports as the spec's decision D11 has them): CRC.CLR completes in every state of a valid instance, loads
CRC_INIT, and changes nothing else; a second one changes nothing; CRC.RD then returns crc_fin(CRC_INIT). -/
def Obligations.CrcClrLoadsInitialValue : Prop :=
  ∀ s : State, s.params.valid = true →
    ∃ t, exec .crcClr s = .next t ∧ t.crcAcc = crcInit s.params.crc ∧ t.output = .none
      ∧ SameEnc s t ∧ SameDec s t ∧ SameHost s t
      ∧ exec .crcClr t = .next t
      ∧ ∃ u, exec .crcRd t = .next u ∧ u.output = .crc (crcFin s.params.crc (crcInit s.params.crc))

/-- R96 (D11): CRC.UPD b completes for every byte in every state of a valid instance and changes the accumulator
alone. -/
def Obligations.CrcUpdAdvancesAccumulator : Prop :=
  ∀ (b : Byte) (s : State), s.params.valid = true →
    ∃ t, exec (.crcUpd b) s = .next t ∧ t.crcAcc = crcUpd s.params.crc s.crcAcc b ∧ t.output = .none
      ∧ SameEnc s t ∧ SameDec s t ∧ SameHost s t

/-- R97 (D11): CRC.RD completes in every state of a valid instance, returns crc_fin(crc_acc), the value the port
always shows, and writes nothing. -/
def Obligations.CrcRdReturnsFinalValue : Prop :=
  ∀ s : State, s.params.valid = true →
    ∃ t, exec .crcRd s = .next t ∧ t.output = .crc (crcFin s.params.crc s.crcAcc)
      ∧ s.crcPort = crcFin s.params.crc s.crcAcc
      ∧ SameCrc s t ∧ SameEnc s t ∧ SameDec s t ∧ SameHost s t

/-- Derived (R98, which the spec derives): from any state of a valid instance CRC.CLR, one CRC.UPD per byte and
CRC.RD return crc16 of the bytes, and where crc_acc holds CRC_INIT already, as after RESET, the clear may be left
out. -/
def Obligations.CrcSequenceComputesCrc16 : Prop :=
  ∀ (bytes : List Byte) (s : State), s.params.valid = true →
    (∃ t outs, runOps (crcOps bytes) s = .next (t, outs ++ [.crc (crc16 s.params.crc bytes)])) ∧
    (s.crcAcc = crcInit s.params.crc →
      ∃ t outs, runOps (bytes.map .crcUpd ++ [.crcRd]) s = .next (t, outs ++ [.crc (crc16 s.params.crc bytes)]))

/-- R92 (the spec's decision D4): crc16 is crc_fin of a left fold by crc_upd from CRC_INIT, and crc16 of no bytes is
crc_fin(CRC_INIT). -/
def Obligations.Crc16IsFoldOfBytes : Prop :=
  ∀ alg : CrcAlgorithm,
    (∃ fold : List Byte → U16, fold [] = crcInit alg
      ∧ (∀ bytes b, fold (bytes ++ [b]) = crcUpd alg (fold bytes) b)
      ∧ ∀ bytes, crc16 alg bytes = crcFin alg (fold bytes))
    ∧ crc16 alg [] = crcFin alg (crcInit alg)

/-- Derived from the two branches of R94's pseudocode: the least-significant-bit-first update is the
most-significant-bit-first one seen in a mirror, accumulator and byte with their bits reversed. -/
def Obligations.ReflectedUpdateMirrorsUnreflected : Prop :=
  ∀ (c : CrcFamily) (a : U16) (b : Byte),
    familyUpd { c with reflect := true } (rev16 a) b.reverse
      = rev16 (familyUpd { c with reflect := false } a b)

/-! ## The encoder -/

/-- R114 (D11): with no frame open ENC.BEGIN completes, emits START bare, loads CRC_INIT and opens the frame. -/
def Obligations.EncBeginOpensFrame : Prop :=
  ∀ s : State, s.params.valid = true → s.encState = .idle →
    ∃ t, exec .encBegin s = .next t ∧ t.tx = s.tx ++ [s.params.startMarker]
      ∧ t.encCrc = crcInit s.params.crc ∧ t.encState = .body ∧ t.output = .none
      ∧ SameCrc s t ∧ SameDec s t ∧ SameHost s t

/-- R115 (D11): with a frame open ENC.PUT b completes for every byte, emits b, after an escape marker if b is a
marker, and updates the CRC with b itself. -/
def Obligations.EncPutEmitsStuffedByte : Prop :=
  ∀ (b : Byte) (s : State), s.params.valid = true → s.encState = .body →
    ∃ t, exec (.encPut b) s = .next t
      ∧ t.tx = s.tx ++ (if b = s.params.startMarker ∨ b = s.params.endMarker ∨ b = s.params.escMarker
          then [s.params.escMarker, b] else [b])
      ∧ t.encCrc = crcUpd s.params.crc s.encCrc b ∧ t.encState = .body ∧ t.output = .none
      ∧ SameCrc s t ∧ SameDec s t ∧ SameHost s t

/-- R116 (D11): with a frame open ENC.END completes, emits the CRC low byte and the high byte, each after an escape
marker if it is a marker, then END bare, closes the frame and leaves enc_crc as it is. -/
def Obligations.EncEndClosesFrame : Prop :=
  ∀ s : State, s.params.valid = true → s.encState = .body →
    let p := s.params
    let c := crcFin p.crc s.encCrc
    let lo : Byte := c.extractLsb' 0 8
    let hi : Byte := c.extractLsb' 8 8
    ∃ t, exec .encEnd s = .next t
      ∧ t.tx = s.tx
          ++ (if lo = p.startMarker ∨ lo = p.endMarker ∨ lo = p.escMarker then [p.escMarker] else []) ++ [lo]
          ++ (if hi = p.startMarker ∨ hi = p.endMarker ∨ hi = p.escMarker then [p.escMarker] else []) ++ [hi]
          ++ [p.endMarker]
      ∧ t.encState = .idle ∧ t.encCrc = s.encCrc ∧ t.output = .none
      ∧ SameCrc s t ∧ SameDec s t ∧ SameHost s t

/-- R117 (the spec's decision D12): encoder calls out of order are refused; RESET is legal in either encoder state.
-/
def Obligations.EncCallsOutOfOrderRefused : Prop :=
  ∀ s : State, s.params.valid = true →
    (s.encState = .body → exec .encBegin s = .refused .encOutOfOrder)
    ∧ (s.encState = .idle → ∀ b, exec (.encPut b) s = .refused .encOutOfOrder)
    ∧ (s.encState = .idle → exec .encEnd s = .refused .encOutOfOrder)
    ∧ ∃ t, exec .reset s = .next t

/-- Derived (R118, which the spec derives): ENC.BEGIN, one ENC.PUT per payload byte and ENC.END, with operations of
the CRC unit and FEEDs interleaved in any way, all complete, append exactly encode(payload) to tx and leave no frame
open. -/
def Obligations.EncodeEmitsExactlyTheFrame : Prop :=
  ∀ (payload : List Byte) (ops : List Instr) (s : State), Inv s → s.encState = .idle →
    ops.filter (fun i => i.unit == some .enc) = encodeOps payload →
    (∀ i ∈ ops, i.unit = some .enc ∨ i.unit = some .crc ∨ ∃ b, i = .feed b) →
    ∃ t outs, runOps ops s = .next (t, outs)
      ∧ t.tx = s.tx ++ encodeFrame s.params payload ∧ t.encState = .idle

/-- Derived (R63, R111, R112): a frame has four bytes more than its payload and one more per marker-valued body
byte, so at most twice the body and two; that bound is reached exactly when every byte of the body is a marker. -/
def Obligations.FrameLengthIsExact : Prop :=
  ∀ (p : Params) (payload : List Byte),
    (encodeFrame p payload).length = payload.length + 4 + markerCount p (frameBody p payload)
    ∧ (frameBody p payload).length + 2 ≤ (encodeFrame p payload).length
    ∧ (encodeFrame p payload).length ≤ 2 * (frameBody p payload).length + 2
    ∧ ((encodeFrame p payload).length = 2 * (frameBody p payload).length + 2
        ↔ ∀ b ∈ frameBody p payload, p.isMarker b = true)

/-- Derived (R112): scanned from its first byte, a frame is an unescaped START, bytes none of which is an unescaped
START or END, and an unescaped END. -/
def Obligations.FrameDelimitersAreTheOnlyOnes : Prop :=
  ∀ (p : Params) (payload : List Byte), p.valid = true →
    ∃ inner, scanClasses p false (encodeFrame p payload) = [.start] ++ inner ++ [.finish]
      ∧ .start ∉ inner ∧ .finish ∉ inner

/-! ## The decoder -/

/-- R130 with the order of R65: FEED b does what the row of its class does, rx_esc tested before the byte's value,
and completes for every byte in every state that meets the invariant; only class DEC.END delivers. -/
def Obligations.FeedRunsTheClassOfItsByte : Prop :=
  ∀ (b : Byte) (s : State), Inv s →
    exec (.feed b) s
      = (if s.rxEsc = true then exec (.decLit b) s
         else if b = s.params.startMarker then exec .decStart s
         else if b = s.params.endMarker then exec .decEnd s
         else if b = s.params.escMarker then exec .decEsc s
         else exec (.decData b) s)
    ∧ ∃ t, exec (.feed b) s = .next t
      ∧ (t.output ≠ .none → s.rxEsc = false ∧ b = s.params.endMarker)

/-- R132: with the flag set DEC.LIT b completes for every byte, markers included: the byte is appended by R131 and
the flag is cleared, also on overflow. -/
def Obligations.DecLitAppendsAnyByte : Prop :=
  ∀ (b : Byte) (s : State), Inv s → s.rxEsc = true →
    ∃ t, exec (.decLit b) s = .next t ∧ AppendEffect b s t ∧ t.rxEsc = false ∧ t.output = .none
      ∧ SameCrc s t ∧ SameEnc s t ∧ SameHost s t

/-- R133: with the flag clear DEC.START completes, empties the buffer without clearing its bytes, and leaves the
flag clear; a second one leaves the same state. -/
def Obligations.DecStartEmptiesBuffer : Prop :=
  ∀ s : State, s.params.valid = true → s.rxEsc = false →
    ∃ t, exec .decStart s = .next t ∧ t.rxLen = 0 ∧ t.rxEsc = false ∧ t.output = .none
      ∧ (∀ a, t.rxBuf.read a = s.rxBuf.read a)
      ∧ SameCrc s t ∧ SameEnc s t ∧ SameHost s t
      ∧ exec .decStart t = .next t

/-- R134: with the flag clear DEC.END completes and delivers the accumulated bytes but the last two exactly when
there are more than two and those two are, low byte first, the CRC of the rest; it changes no state. -/
def Obligations.DecEndDeliversCheckedPayload : Prop :=
  ∀ s : State, Inv s → s.rxEsc = false →
    ∃ t, exec .decEnd s = .next t
      ∧ t.output =
          (if 2 < s.rxLen ∧ crc16 s.params.crc ((List.range (s.rxLen - 2)).map s.rxBuf.read)
                = s.rxBuf.read (s.rxLen - 1) ++ s.rxBuf.read (s.rxLen - 2)
            then .frame ((List.range (s.rxLen - 2)).map s.rxBuf.read) else .none)
      ∧ SameCrc s t ∧ SameEnc s t ∧ SameDec s t ∧ SameHost s t

/-- R135: with the flag clear DEC.ESC completes and sets the flag; nothing else changes, even with a full buffer. -/
def Obligations.DecEscSetsLiteralFlag : Prop :=
  ∀ s : State, s.params.valid = true → s.rxEsc = false →
    ∃ t, exec .decEsc s = .next t ∧ t.rxEsc = true ∧ t.output = .none
      ∧ t.rxLen = s.rxLen ∧ (∀ a, t.rxBuf.read a = s.rxBuf.read a)
      ∧ SameCrc s t ∧ SameEnc s t ∧ SameHost s t

/-- R136: with the flag clear DEC.DATA b completes for every byte that is no marker: the byte is appended by R131,
whether or not a start marker has been seen. -/
def Obligations.DecDataAppendsPlainByte : Prop :=
  ∀ (b : Byte) (s : State), Inv s → s.rxEsc = false → s.params.isMarker b = false →
    ∃ t, exec (.decData b) s = .next t ∧ AppendEffect b s t ∧ t.rxEsc = false ∧ t.output = .none
      ∧ SameCrc s t ∧ SameEnc s t ∧ SameHost s t

/-- Derived (the append of R131 with the spec's decisions D6 and D7, R133, and R168's order of tests): a literal or
plain byte is appended, or empties a full buffer and is lost with it; the guard fires only there: fed unescaped to
a full buffer, an end or escape marker keeps the full buffer and a start marker empties it as always. -/
def Obligations.AppendGuardFiresOnlyInAppend : Prop :=
  ∀ (b : Byte) (s : State), Inv s →
    ∃ t, exec (.feed b) s = .next t
      ∧ (s.rxEsc = true ∨ s.params.isMarker b = false → AppendEffect b s t)
      ∧ (s.rxLen = s.params.cap → s.rxEsc = false →
          (b = s.params.endMarker ∨ b = s.params.escMarker → t.rxLen = s.params.cap ∧ t.held = s.held)
          ∧ (b = s.params.startMarker → t.rxLen = 0))

/-- Derived (log entry 10, the model's choice): a class row whose condition (R65) does not hold is refused. -/
def Obligations.ClassRowNeedsItsCondition : Prop :=
  ∀ s : State, s.params.valid = true →
    (s.rxEsc = false → ∀ b, exec (.decLit b) s = .refused .classCondition)
    ∧ (s.rxEsc = true → exec .decStart s = .refused .classCondition)
    ∧ (s.rxEsc = true → exec .decEnd s = .refused .classCondition)
    ∧ (s.rxEsc = true → exec .decEsc s = .refused .classCondition)
    ∧ (∀ b, s.rxEsc = true ∨ s.params.isMarker b = true →
        exec (.decData b) s = .refused .classCondition)

/-- Derived (R24, R41, D21): the decoder over a memory and a length refines the decoder over one list of at most CAP
bytes: every FEED completes, the list read off the next state is the list decoder's next, and the result is what the
list decoder delivers. -/
def Obligations.DecoderRefinesListDecoder : Prop :=
  ∀ (b : Byte) (s : State), Inv s →
    ∃ t, exec (.feed b) s = .next t
      ∧ t.listDec = (listFeed s.params s.listDec b).1
      ∧ t.output = feedOutput (listFeed s.params s.listDec b).2

/-- Derived (R74): with an empty buffer and a clear flag, feeding a stuffed body of at most CAP bytes rebuilds the
body, leaves the flag clear and delivers nothing on the way. -/
def Obligations.UnstuffingInvertsStuffing : Prop :=
  ∀ (body : List Byte) (s : State), Inv s → s.rxLen = 0 → s.rxEsc = false → body.length ≤ s.params.cap →
    ∃ t outs, runOps (feedOps (stuffAll s.params body)) s = .next (t, outs)
      ∧ t.held = body ∧ t.rxLen = body.length ∧ t.rxEsc = false ∧ ∀ o ∈ outs, o = .none

/-- Derived (R141): fed to a decoder in any state with a clear flag, the bytes of encode(payload) deliver nothing
but, at the last byte, the payload, for every payload of 1 to CAP - 2 bytes. -/
def Obligations.EncodedFrameIsDelivered : Prop :=
  ∀ (payload : List Byte) (s : State), Inv s → s.rxEsc = false →
    1 ≤ payload.length → payload.length + 2 ≤ s.params.cap →
    ∃ t outs, runOps (feedOps (encodeFrame s.params payload)) s = .next (t, outs ++ [.frame payload])
      ∧ (∀ o ∈ outs, o = .none) ∧ t.rxEsc = false

/-- Derived (R144, R141, C2): `decode` of `encode` of a payload of 1 to CAP - 2 bytes is that payload, once. -/
def Obligations.DecodeOfEncodeIsPayload : Prop :=
  ∀ (p : Params) (payload : List Byte), p.valid = true → 1 ≤ payload.length → payload.length + 2 ≤ p.cap →
    decodeStream p (encodeFrame p payload) = [payload]

/-- Derived (R143): a dangling escape costs at most one frame: fed two frames with the flag set, whatever the first
one's payload, the decoder delivers the second at its last byte. -/
def Obligations.DanglingEscapeLosesAtMostOneFrame : Prop :=
  ∀ (first second : List Byte) (s : State), Inv s → s.rxEsc = true →
    1 ≤ second.length → second.length + 2 ≤ s.params.cap →
    ∃ t outs, runOps (feedOps (encodeFrame s.params first ++ encodeFrame s.params second)) s
      = .next (t, outs ++ [.frame second])

/-- Derived (R142, R146, R165): whatever the operation, a payload is delivered only by an unescaped end marker, with
more than two bytes held and the CRC of all but the last two equal to those, low byte first; it is those bytes,
frame_len is its length, and it has 1 to CAP - 2 bytes. -/
def Obligations.DeliveryOnlyOnMatchingCrc : Prop :=
  ∀ (i : Instr) (s t : State) (q : List Byte), Inv s → exec i s = .next t → t.output = .frame q →
    (i = .decEnd ∨ i = .feed s.params.endMarker) ∧ s.rxEsc = false ∧ 2 < s.rxLen
    ∧ q = s.held.take (s.rxLen - 2)
    ∧ s.held.drop (s.rxLen - 2) = [(crc16 s.params.crc q).extractLsb' 0 8, (crc16 s.params.crc q).extractLsb' 8 8]
    ∧ t.frameLen = some q.length ∧ 1 ≤ q.length ∧ q.length ≤ s.params.cap - 2

/-- Derived (R137): of a run of plain bytes fed to an empty buffer, each (CAP + 1)-th is discarded with all before
it, and the buffer holds the bytes since the last discarded one. -/
def Obligations.PlainRunKeepsBytesSinceOverflow : Prop :=
  ∀ (bytes : List Byte) (s : State), Inv s → s.rxLen = 0 → s.rxEsc = false →
    (∀ b ∈ bytes, s.params.isMarker b = false) →
    ∃ t outs, runOps (feedOps bytes) s = .next (t, outs)
      ∧ t.held = bytes.drop (bytes.length / (s.params.cap + 1) * (s.params.cap + 1))
      ∧ ∀ o ∈ outs, o = .none

/-- Derived (R138, R147): an unescaped end marker fed again right away finds the same buffer and gives the same
answer. -/
def Obligations.RepeatedEndMarkerAnswersAgain : Prop :=
  ∀ s : State, Inv s → s.rxEsc = false →
    ∃ t, exec (.feed s.params.endMarker) s = .next t ∧ t.held = s.held ∧ t.rxEsc = false
      ∧ exec (.feed s.params.endMarker) t = .next t

/-- Derived (R66, which the spec derives, with R132): after an unescaped escape marker every one of the 256 byte
values is appended as data and the flag is clear again; the escape marker itself is not stored. -/
def Obligations.EscapedByteIsAlwaysData : Prop :=
  ∀ (b : Byte) (s : State), Inv s → s.rxEsc = false → s.rxLen < s.params.cap →
    ∃ t outs, runOps (feedOps [s.params.escMarker, b]) s = .next (t, outs)
      ∧ t.held = s.held ++ [b] ∧ t.rxEsc = false ∧ outs = [.none, .none]

/-- R161: each FEED falls under one label, and the label says what it does to the accumulated bytes, the flag and
the result. -/
def Obligations.FeedLabelGivesEffect : Prop :=
  ∀ (b : Byte) (s : State), Inv s →
    ∃ t, exec (.feed b) s = .next t ∧
      match feedLabel s b with
      | .append => s.rxLen < s.params.cap ∧ t.held = s.held ++ [b] ∧ t.rxEsc = false ∧ t.output = .none
      | .overflow => s.rxLen = s.params.cap ∧ t.held = [] ∧ t.rxEsc = false ∧ t.output = .none
      | .resync => t.held = [] ∧ t.rxEsc = s.rxEsc ∧ t.output = .none
      | .arm => t.held = s.held ∧ t.rxEsc = true ∧ t.output = .none
      | .dropShort => s.rxLen ≤ 2 ∧ t.held = s.held ∧ t.rxEsc = s.rxEsc ∧ t.output = .none
      | .dropCrc => 2 < s.rxLen ∧ t.held = s.held ∧ t.rxEsc = s.rxEsc ∧ t.output = .none
      | .deliver => 2 < s.rxLen ∧ t.held = s.held ∧ t.rxEsc = s.rxEsc
          ∧ t.output = .frame (s.held.take (s.rxLen - 2))

/-- Derived (R69 (a), R119, R202): the frame of an empty payload delivers nothing, from any state with a clear flag.
-/
def Obligations.EmptyPayloadIsNeverDelivered : Prop :=
  ∀ s : State, Inv s → s.rxEsc = false →
    ∃ t outs, runOps (feedOps (encodeFrame s.params [])) s = .next (t, outs) ∧ ∀ o ∈ outs, o = .none

/-- Derived (R146, R196): the frame of a payload longer than CAP - 2 never delivers that payload, from any state. -/
def Obligations.LongPayloadIsNeverDelivered : Prop :=
  ∀ (payload : List Byte) (s : State), Inv s → s.params.cap < payload.length + 2 →
    ∃ t outs, runOps (feedOps (encodeFrame s.params payload)) s = .next (t, outs) ∧ .frame payload ∉ outs

/-- Derived (R41, and log entry 12 for the outside): inside 0..CAP-1 MemWrite completes, MemRead then returns the
byte written, and every other index reads as before; outside, the model faults (log entry 12). -/
def Obligations.MemReadAfterMemWrite : Prop :=
  ∀ (i : Nat) (b : Byte) (s : State), s.rxBuf.wf = true →
    (i < s.params.cap →
      ∃ t, memWrite s i b = .ok t ∧ memRead t i = .ok b ∧ ∀ j, j ≠ i → memRead t j = memRead s j)
    ∧ (s.params.cap ≤ i → memWrite s i b = .error .rxIndexOutOfRange ∧ memRead s i = .error .rxIndexOutOfRange)

/-! ## Reset -/

/-- Derived (R190, which rests on the spec's decisions D15 and D19): RESET completes in every state of a valid
instance, gives the four elements their values of the reset table, leaves enc_crc and the bytes of rx_buf, and
emits nothing. That the history tx is kept is the model's choice where R34 and R27 read otherwise than R190 and
R192 (log entry 9). -/
def Obligations.ResetGivesTableValues : Prop :=
  ∀ s : State, s.params.valid = true →
    ∃ t, exec .reset s = .next t ∧ t.crcAcc = crcInit s.params.crc ∧ t.encState = .idle ∧ t.rxLen = 0
      ∧ t.rxEsc = false ∧ t.output = .none ∧ t.encCrc = s.encCrc
      ∧ (∀ a, t.rxBuf.read a = s.rxBuf.read a) ∧ t.tx = s.tx ∧ SameHost s t

/-- Derived (R34, R191; the zeros of enc_crc and rx_buf are log entries 4 and 5, the model's choice and not stated
here): for every configuration the first state has the values of the reset table, and State.reset is the first
state of some valid configuration, of which the model says no more (R11, log entry 2). -/
def Obligations.PowerOnHasTableValues : Prop :=
  (∀ p : Params, (State.powerOn p).crcAcc = crcInit p.crc ∧ (State.powerOn p).encState = .idle
    ∧ (State.powerOn p).rxLen = 0 ∧ (State.powerOn p).rxEsc = false ∧ (State.powerOn p).tx = []
    ∧ (State.powerOn p).params = p)
  ∧ ∃ p : Params, p.valid = true ∧ State.reset = State.powerOn p

/-- Derived (R9, R24, R25; State.reset starts an instance of which only R9 is known, log entry 2): State.reset, and
the first state of every valid configuration, meet the invariant. -/
def Obligations.PowerOnMeetsInvariant : Prop :=
  Inv State.reset ∧ ∀ p : Params, p.valid = true → Inv (State.powerOn p)

/-! ## The whole machine -/

/-- Derived (R9, R24, R25, R146): from every state that meets the invariant, a step that answers a next state
answers one that meets it: the configuration stays valid, rx_len stays at most CAP, rx_buf keeps its canonical form
below CAP, and a delivered payload has 1 to CAP - 2 bytes. -/
def Obligations.StepKeepsInvariant : Prop :=
  ∀ s t : State, Inv s → step s = .next t → Inv t

/-- Derived (R160, R117; log entry 10): nothing faults in a state that meets the invariant, and the only operations
without a result there are encoder calls out of order and, for the model, class rows whose condition does not hold.
-/
def Obligations.NoOperationFaults : Prop :=
  ∀ s : State, Inv s →
    (∀ f, step s ≠ .fault f) ∧
    ∀ i : Instr, (∀ f, exec i s ≠ .fault f) ∧
      ∀ r, exec i s = .refused r →
        (r = .encOutOfOrder ∧ i.unit = some .enc) ∨
        (r = .classCondition ∧ i.unit = some .dec ∧ ∀ b, i ≠ .feed b)

/-- Derived (R173, with log entry 10 for the class rows): in a state that meets the invariant an operation completes
exactly when the host may issue it. -/
def Obligations.LegalOperationsComplete : Prop :=
  ∀ (i : Instr) (s : State), Inv s → (mayIssue i s = true ↔ ∃ t, exec i s = .next t)

/-- Derived (D2, D5, U3, U5; log entry 11): in a configuration that breaks R9 every operation is refused. -/
def Obligations.InvalidConfigurationIsRefused : Prop :=
  ∀ (i : Instr) (s : State), s.params.valid = false → exec i s = .refused .badConfiguration

/-- Derived (R9; the model holds the parameters in the state, log entry 1): no operation, and no step, changes a
parameter. -/
def Obligations.ParametersAreFixed : Prop :=
  (∀ (i : Instr) (s t : State), exec i s = .next t → t.params = s.params)
  ∧ ∀ s t : State, step s = .next t → t.params = s.params

/-- Derived (R29's access table, which the spec derives, with R65, R9, R35): the frame of every operation: each of
the six elements is unchanged by every operation that its row of the table does not list as writing it, FEED by the
class of its byte, and so are tx by all but ENC, the parameters and what the host is still to issue. That RESET
leaves enc_crc, which R190 says where R29's table lists RESET, and tx is the model's reading (log entry 9). -/
def Obligations.OnlyListedOperationsWrite : Prop :=
  ∀ (i : Instr) (s t : State), exec i s = .next t →
    (i ≠ .crcClr → (∀ b, i ≠ .crcUpd b) → i ≠ .reset → t.crcAcc = s.crcAcc)
    ∧ (i ≠ .encBegin → i ≠ .encEnd → i ≠ .reset → t.encState = s.encState)
    ∧ (i ≠ .encBegin → (∀ b, i ≠ .encPut b) → t.encCrc = s.encCrc)
    ∧ (i.unit ≠ some .enc → t.tx = s.tx)
    ∧ (feedClass i s ≠ some .lit → feedClass i s ≠ some .data → ∀ a, t.rxBuf.read a = s.rxBuf.read a)
    ∧ (feedClass i s ≠ some .lit → feedClass i s ≠ some .data → feedClass i s ≠ some .start → i ≠ .reset →
        t.rxLen = s.rxLen)
    ∧ (feedClass i s ≠ some .escape → feedClass i s ≠ some .lit → i ≠ .reset → t.rxEsc = s.rxEsc)
    ∧ SameHost s t

/-- Derived (R149, R41): every byte of rx_buf but the one stored to reads as before, whatever the operation; the
address stored to is rx_len, for an append that finds room, and there the operand stands after. -/
def Obligations.MemoryUnchangedOutsideStoredByte : Prop :=
  ∀ (i : Instr) (s t : State), exec i s = .next t →
    (∀ a, storesAt i s ≠ some a → t.rxBuf.read a = s.rxBuf.read a)
    ∧ (s.rxBuf.wf = true → ∀ a b, storesAt i s = some a → (i = .decLit b ∨ i = .decData b ∨ i = .feed b) →
        t.rxBuf.read a = b)

/-- Derived (R27 (a), R47, R50): emitted bytes are only ever added at the end of tx: one by ENC.BEGIN, one or two
by ENC.PUT, three to five by ENC.END, none by any other operation. That RESET keeps tx is the model's choice: it
reads R27's 'since reset' as since power-on (log entry 9). -/
def Obligations.TransmitStreamOnlyGrows : Prop :=
  ∀ (i : Instr) (s t : State), exec i s = .next t →
    ∃ bytes, t.tx = s.tx ++ bytes ∧
      match i with
      | .encBegin => bytes.length = 1
      | .encPut _ => 1 ≤ bytes.length ∧ bytes.length ≤ 2
      | .encEnd => 3 ≤ bytes.length ∧ bytes.length ≤ 5
      | _ => bytes = []

/-- Derived (R36, R51): operations of two different units commute: in either order both complete, with the same
result each, and the same state of the block after both. -/
def Obligations.UnitsCommute : Prop :=
  ∀ (i j : Instr) (u v : BlockUnit) (s s1 s2 : State), i.unit = some u → j.unit = some v → u ≠ v →
    exec i s = .next s1 → exec j s1 = .next s2 →
    ∃ t1 t2, exec j s = .next t1 ∧ exec i t1 = .next t2
      ∧ t2.settled = s2.settled ∧ t1.output = s2.output ∧ t2.output = s1.output

/-- Derived (R27 (b), R165): the result of a step exists for that step only: no operation's answer depends on the
result the state before carries. -/
def Obligations.ResultIsNotLatched : Prop :=
  ∀ (i : Instr) (s : State) (o : Output), exec i { s with output := o } = exec i s

/-- Derived (R23, R24, R34, U11): no result depends on an unspecified value: two states alike but for enc_crc
outside a frame and the bytes of rx_buf at or above rx_len give, by any operation and by a step, the same stop or
next states alike in the same way, results and emitted bytes equal. -/
def Obligations.UnspecifiedValuesNeverMatter : Prop :=
  ∀ s t : State, Inv s → Inv t → SameSpecified s t →
    (∀ i : Instr, SameAnswer (exec i s) (exec i t)) ∧ SameAnswer (step s) (step t)

/-! ## Decoding and stepping -/

/-- Derived (R72, R13 and the model's host interface, log entry 6): a step takes the host's next port word and runs
exactly the operation it decodes to, the word taken off the list. -/
def Obligations.StepRunsDecodedOperation : Prop :=
  ∀ (s : State) (w : PortWord) (rest : List PortWord) (i : Instr),
    s.issued = w :: rest → decode s.params w = .ok i → step s = exec i { s with issued := rest }

/-- Derived (R72, D12 for two strobes of one unit, which are refused; log entry 7, the model's choice, for no strobe
and no word, which change nothing). -/
def Obligations.StrobesOfOneUnitExclude : Prop :=
  ∀ (s : State) (w : PortWord) (rest : List PortWord), s.params.valid = true →
    (s.issued = w :: rest → decode s.params w = .error .twoStrobes → step s = .refused .twoStrobes)
    ∧ (s.issued = w :: rest → decode s.params w = .error .noStrobe →
        step s = .next { s with issued := rest, output := .none })
    ∧ (s.issued = [] → step s = .next { s with output := .none })

/-- Derived (R65, R70 to R72; log entry 15): for every operation at every operand, the word the encoder writes
decodes to it. -/
def Obligations.DecodeOfEncodedWord : Prop :=
  ∀ (p : Params) (i : Instr), p.valid = true → i.wellFormed p = true → decode p (encodeWord p i) = .ok i

/-- Derived (R65, R67, R72; log entry 15 for the don't-care bits): the other way: each of the 512 DEC-byte pairs
decodes to a class row whose word it is; every word of the DEC and reset ports that decodes is the word of what it
decodes to; so is every word of the CRC and ENC ports with its don't-care data bits cleared, all but those of
CRC.UPD and ENC.PUT. -/
def Obligations.EncodedWordOfDecodedPair : Prop :=
  ∀ (p : Params) (w : BitVec 9), p.valid = true →
    (∃ i, decode p (.decByte w) = .ok i ∧ i.wellFormed p = true ∧ encodeWord p i = .decByte w)
    ∧ (∀ i, decode p (.dec w) = .ok i → encodeWord p i = .dec w)
    ∧ (∀ (v : BitVec 1) i, decode p (.reset v) = .ok i → encodeWord p i = .reset v)
    ∧ (∀ (v : BitVec 10) i, decode p (.crc v) = .ok i →
        encodeWord p i = .crc (if v.extractLsb' 8 2 = 0b01#2 then v else v &&& 0b1100000000#10))
    ∧ (∀ (v : BitVec 11) i, decode p (.enc v) = .ok i →
        encodeWord p i = .enc (if v.extractLsb' 8 3 = 0b010#3 then v else v &&& 0b11100000000#11))

/-- Derived (the rows of opcode_table.json; the reference instance of R11, which is for such vectors): words
written out from the table decode to their rows, one or more of each format; a word with two strobes and one
without are rejected by name. -/
def Obligations.TableWordsDecode : Prop :=
  let p := Config.reference 8
  decode p (.decByte 0b101000001#9) = .ok (.decLit 0x41#8)
  ∧ decode p (.decByte 0b000000001#9) = .ok .decStart
  ∧ decode p (.decByte 0b000000100#9) = .ok .decEnd
  ∧ decode p (.decByte 0b000010000#9) = .ok .decEsc
  ∧ decode p (.decByte 0b001000001#9) = .ok (.decData 0x41#8)
  ∧ decode p (.crc 0b0100000001#10) = .ok (.crcUpd 0x01#8)
  ∧ decode p (.enc 0b01000010000#11) = .ok (.encPut 0x10#8)
  ∧ decode p (.dec 0b100000100#9) = .ok (.feed 0x04#8)
  ∧ decode p (.reset 0b1#1) = .ok .reset
  ∧ decode p (.crc 0b1100000000#10) = .error .twoStrobes
  ∧ decode p (.enc 0b00000000000#11) = .error .noStrobe

/-- Derived (R72, D12; log entries 7 and 15): every word of the four ports, over its strobe bits and at every data
byte: one strobe names its operation, whatever the don't-care bits; two or more are rejected as two strobes; none is
CRC.RD on the CRC port, as its table row has it, and rejected as no strobe on the others. -/
def Obligations.PortWordsDecodeByStrobes : Prop :=
  ∀ p : Params,
    (∀ w : BitVec 10, decode p (.crc w)
      = (if w.extractLsb' 8 2 = 0b11#2 then .error .twoStrobes
         else if w.extractLsb' 8 2 = 0b10#2 then .ok .crcClr
         else if w.extractLsb' 8 2 = 0b01#2 then .ok (.crcUpd (w.extractLsb' 0 8))
         else .ok .crcRd))
    ∧ (∀ w : BitVec 11, decode p (.enc w)
      = (if w.extractLsb' 8 3 = 0b000#3 then .error .noStrobe
         else if w.extractLsb' 8 3 = 0b100#3 then .ok .encBegin
         else if w.extractLsb' 8 3 = 0b010#3 then .ok (.encPut (w.extractLsb' 0 8))
         else if w.extractLsb' 8 3 = 0b001#3 then .ok .encEnd
         else .error .twoStrobes))
    ∧ (∀ w : BitVec 9, decode p (.dec w)
      = (if w.extractLsb' 8 1 = 0b1#1 then .ok (.feed (w.extractLsb' 0 8)) else .error .noStrobe))
    ∧ (∀ w : BitVec 1, decode p (.reset w) = (if w = 0b1#1 then .ok .reset else .error .noStrobe))
end

