-- ==== Sys2Proof/Laws/State.lean ====
section
/-! SUPPORT. One lemma per field per update of State, true by rfl, so that no proof unfolds a record update. -/

namespace Sys2Proof.Machine

@[simp] theorem emit_crcAcc (s : State) (bytes : List Byte) : (emit s bytes).crcAcc = s.crcAcc := rfl
@[simp] theorem emit_encState (s : State) (bytes : List Byte) : (emit s bytes).encState = s.encState := rfl
@[simp] theorem emit_encCrc (s : State) (bytes : List Byte) : (emit s bytes).encCrc = s.encCrc := rfl
@[simp] theorem emit_rxBuf (s : State) (bytes : List Byte) : (emit s bytes).rxBuf = s.rxBuf := rfl
@[simp] theorem emit_rxLen (s : State) (bytes : List Byte) : (emit s bytes).rxLen = s.rxLen := rfl
@[simp] theorem emit_rxEsc (s : State) (bytes : List Byte) : (emit s bytes).rxEsc = s.rxEsc := rfl
@[simp] theorem emit_tx (s : State) (bytes : List Byte) : (emit s bytes).tx = s.tx ++ bytes := rfl
@[simp] theorem emit_output (s : State) (bytes : List Byte) : (emit s bytes).output = s.output := rfl
@[simp] theorem emit_params (s : State) (bytes : List Byte) : (emit s bytes).params = s.params := rfl
@[simp] theorem emit_issued (s : State) (bytes : List Byte) : (emit s bytes).issued = s.issued := rfl

@[simp] theorem answer_crcAcc (s : State) (o : Output) : (answer s o).crcAcc = s.crcAcc := rfl
@[simp] theorem answer_encState (s : State) (o : Output) : (answer s o).encState = s.encState := rfl
@[simp] theorem answer_encCrc (s : State) (o : Output) : (answer s o).encCrc = s.encCrc := rfl
@[simp] theorem answer_rxBuf (s : State) (o : Output) : (answer s o).rxBuf = s.rxBuf := rfl
@[simp] theorem answer_rxLen (s : State) (o : Output) : (answer s o).rxLen = s.rxLen := rfl
@[simp] theorem answer_rxEsc (s : State) (o : Output) : (answer s o).rxEsc = s.rxEsc := rfl
@[simp] theorem answer_tx (s : State) (o : Output) : (answer s o).tx = s.tx := rfl
@[simp] theorem answer_output (s : State) (o : Output) : (answer s o).output = o := rfl
@[simp] theorem answer_params (s : State) (o : Output) : (answer s o).params = s.params := rfl
@[simp] theorem answer_issued (s : State) (o : Output) : (answer s o).issued = s.issued := rfl

@[simp] theorem setEsc_crcAcc (s : State) : (setEsc s).crcAcc = s.crcAcc := rfl
@[simp] theorem setEsc_encState (s : State) : (setEsc s).encState = s.encState := rfl
@[simp] theorem setEsc_encCrc (s : State) : (setEsc s).encCrc = s.encCrc := rfl
@[simp] theorem setEsc_rxBuf (s : State) : (setEsc s).rxBuf = s.rxBuf := rfl
@[simp] theorem setEsc_rxLen (s : State) : (setEsc s).rxLen = s.rxLen := rfl
@[simp] theorem setEsc_rxEsc (s : State) : (setEsc s).rxEsc = true := rfl
@[simp] theorem setEsc_tx (s : State) : (setEsc s).tx = s.tx := rfl
@[simp] theorem setEsc_output (s : State) : (setEsc s).output = s.output := rfl
@[simp] theorem setEsc_params (s : State) : (setEsc s).params = s.params := rfl
@[simp] theorem setEsc_issued (s : State) : (setEsc s).issued = s.issued := rfl

@[simp] theorem clearEsc_crcAcc (s : State) : (clearEsc s).crcAcc = s.crcAcc := rfl
@[simp] theorem clearEsc_encState (s : State) : (clearEsc s).encState = s.encState := rfl
@[simp] theorem clearEsc_encCrc (s : State) : (clearEsc s).encCrc = s.encCrc := rfl
@[simp] theorem clearEsc_rxBuf (s : State) : (clearEsc s).rxBuf = s.rxBuf := rfl
@[simp] theorem clearEsc_rxLen (s : State) : (clearEsc s).rxLen = s.rxLen := rfl
@[simp] theorem clearEsc_rxEsc (s : State) : (clearEsc s).rxEsc = false := rfl
@[simp] theorem clearEsc_tx (s : State) : (clearEsc s).tx = s.tx := rfl
@[simp] theorem clearEsc_output (s : State) : (clearEsc s).output = s.output := rfl
@[simp] theorem clearEsc_params (s : State) : (clearEsc s).params = s.params := rfl
@[simp] theorem clearEsc_issued (s : State) : (clearEsc s).issued = s.issued := rfl

@[simp] theorem State.powerOn_crcAcc (p : Params) : (State.powerOn p).crcAcc = crcInit p.crc := rfl
@[simp] theorem State.powerOn_encState (p : Params) : (State.powerOn p).encState = .idle := rfl
@[simp] theorem State.powerOn_encCrc (p : Params) : (State.powerOn p).encCrc = 0x0000#16 := rfl
@[simp] theorem State.powerOn_rxBuf (p : Params) : (State.powerOn p).rxBuf = [] := rfl
@[simp] theorem State.powerOn_rxLen (p : Params) : (State.powerOn p).rxLen = 0 := rfl
@[simp] theorem State.powerOn_rxEsc (p : Params) : (State.powerOn p).rxEsc = false := rfl
@[simp] theorem State.powerOn_tx (p : Params) : (State.powerOn p).tx = [] := rfl
@[simp] theorem State.powerOn_output (p : Params) : (State.powerOn p).output = .none := rfl
@[simp] theorem State.powerOn_params (p : Params) : (State.powerOn p).params = p := rfl
@[simp] theorem State.powerOn_issued (p : Params) : (State.powerOn p).issued = [] := rfl

@[simp] theorem answer_answer (s : State) (o o' : Output) : answer (answer s o) o' = answer s o' := rfl
@[simp] theorem answer_held (s : State) (o : Output) : (answer s o).held = s.held := rfl
@[simp] theorem clearEsc_held (s : State) : (clearEsc s).held = s.held := rfl
@[simp] theorem setEsc_held (s : State) : (setEsc s).held = s.held := rfl

end Sys2Proof.Machine
end

