-- ==== Sys2Proof/Laws/Memory.lean ====
section
/-! SUPPORT. What a write to rx_buf's contents does: the byte reads back, every other index reads as before, the
canonical form is kept, and equal readings mean equal contents. -/

namespace Sys2Proof.Machine

@[simp] theorem Memory.read_nil (a : Nat) : Memory.read [] a = Memory.unwritten := rfl

theorem Memory.read_cons (k : Nat) (v : Byte) (m : Memory) (a : Nat) :
    Memory.read ((k, v) :: m) a = if k = a then v else m.read a := rfl

/-- Below the first possible index nothing is listed. -/
theorem Memory.read_of_wfFrom (m : Memory) (lo a : Nat) (h : Memory.wfFrom lo m = true) (ha : a < lo) :
    m.read a = Memory.unwritten := by
  induction m generalizing lo with
  | nil => rfl
  | cons c m ih =>
    obtain ⟨k, v⟩ := c
    simp only [Memory.wfFrom, Bool.and_eq_true, decide_eq_true_eq] at h
    rw [Memory.read_cons, if_neg (by omega), ih (k + 1) h.2 (by omega)]

theorem Memory.wfFrom_mono (m : Memory) (lo lo' : Nat) (h : Memory.wfFrom lo m = true) (hle : lo' ≤ lo) :
    Memory.wfFrom lo' m = true := by
  cases m with
  | nil => rfl
  | cons c m =>
    simp only [Memory.wfFrom, Bool.and_eq_true, decide_eq_true_eq] at h ⊢
    exact ⟨⟨by omega, h.1.2⟩, h.2⟩

/-- The byte just written reads back, in any contents in canonical form. -/
theorem Memory.read_write_same_from (m : Memory) (lo a : Nat) (b : Byte) (h : Memory.wfFrom lo m = true) :
    (m.write a b).read a = b := by
  induction m generalizing lo with
  | nil =>
    unfold Memory.write
    split
    · simp_all
    · simp [Memory.read_cons]
  | cons c m ih =>
    obtain ⟨k, v⟩ := c
    simp only [Memory.wfFrom, Bool.and_eq_true, decide_eq_true_eq] at h
    unfold Memory.write
    split
    · split
      · next hb => rw [Memory.read_cons, if_neg (by omega), hb]; exact Memory.read_of_wfFrom m (k + 1) a h.2 (by omega)
      · simp [Memory.read_cons]
    · split
      · next hk =>
        split
        · next hb => rw [hb]; exact Memory.read_of_wfFrom m (k + 1) a h.2 (by omega)
        · simp [Memory.read_cons]
      · next hk => rw [Memory.read_cons, if_neg (Ne.symm hk)]; exact ih (k + 1) h.2

theorem Memory.read_write_same (m : Memory) (a : Nat) (b : Byte) (h : m.wf = true) :
    (m.write a b).read a = b := Memory.read_write_same_from m 0 a b h

/-- Every other index reads as before. -/
theorem Memory.read_write_other (m : Memory) (a i : Nat) (b : Byte) (h : i ≠ a) :
    (m.write a b).read i = m.read i := by
  induction m with
  | nil =>
    unfold Memory.write
    split
    · rfl
    · rw [Memory.read_cons, if_neg (Ne.symm h)]
  | cons c m ih =>
    obtain ⟨k, v⟩ := c
    unfold Memory.write
    split
    · split
      · rfl
      · rw [Memory.read_cons, if_neg (Ne.symm h)]
    · split
      · next hk =>
        subst hk
        split
        · rw [Memory.read_cons, if_neg (Ne.symm h)]
        · simp [Memory.read_cons, Ne.symm h]
      · rw [Memory.read_cons, Memory.read_cons, ih]

theorem Memory.wfFrom_write (m : Memory) (lo a : Nat) (b : Byte) (h : Memory.wfFrom lo m = true) (ha : lo ≤ a) :
    Memory.wfFrom lo (m.write a b) = true := by
  induction m generalizing lo with
  | nil =>
    unfold Memory.write
    split
    · rfl
    · simp_all [Memory.wfFrom]
  | cons c m ih =>
    obtain ⟨k, v⟩ := c
    have h' := h
    simp only [Memory.wfFrom, Bool.and_eq_true, decide_eq_true_eq] at h'
    obtain ⟨⟨h1, h2⟩, h3⟩ := h'
    unfold Memory.write
    split
    · split
      · exact h
      · next hk hb => simp [Memory.wfFrom, ha, hb, h2, h3]; omega
    · split
      · next hk =>
        split
        · exact Memory.wfFrom_mono m (k + 1) lo h3 (by omega)
        · next hb => subst hk; simp [Memory.wfFrom, ha, hb, h3]
      · simp [Memory.wfFrom, h1, h2]; exact ih (k + 1) h3 (by omega)

/-- Writing keeps the canonical form. -/
theorem Memory.wf_write (m : Memory) (a : Nat) (b : Byte) (h : m.wf = true) : (m.write a b).wf = true :=
  Memory.wfFrom_write m 0 a b h (Nat.zero_le a)

/-- Writing below CAP keeps every listed index below CAP. -/
theorem Memory.below_write (m : Memory) (a cap : Nat) (b : Byte) (h : m.below cap = true) (ha : a < cap) :
    (m.write a b).below cap = true := by
  induction m with
  | nil =>
    unfold Memory.write
    split <;> simp [Memory.below, ha]
  | cons c m ih =>
    obtain ⟨k, v⟩ := c
    have hc : k < cap ∧ Memory.below m cap = true := by simpa [Memory.below] using h
    have build : ∀ k' v' (m' : Memory), k' < cap → Memory.below m' cap = true →
        Memory.below ((k', v') :: m') cap = true := fun k' v' m' h1 h2 => by
      simp only [Memory.below, List.all_cons, decide_eq_true h1, Bool.true_and] at h2 ⊢
      exact h2
    unfold Memory.write
    split
    · split
      · exact h
      · exact build _ _ _ ha h
    · split
      · split
        · exact hc.2
        · exact build _ _ _ ha hc.2
      · exact build _ _ _ hc.1 (ih hc.2)

/-- The canonical form is canonical: contents that read alike at every index are equal. -/
theorem Memory.ext_from (m n : Memory) (lo : Nat) (hm : Memory.wfFrom lo m = true) (hn : Memory.wfFrom lo n = true)
    (h : ∀ a, m.read a = n.read a) : m = n := by
  induction m generalizing n lo with
  | nil =>
    cases n with
    | nil => rfl
    | cons c n =>
      obtain ⟨k, v⟩ := c
      have := h k
      simp_all [Memory.read_cons, Memory.wfFrom]
  | cons c m ih =>
    obtain ⟨k, v⟩ := c
    simp only [Memory.wfFrom, Bool.and_eq_true, decide_eq_true_eq] at hm
    cases n with
    | nil =>
      have := h k
      simp_all [Memory.read_cons]
    | cons d n =>
      obtain ⟨k', v'⟩ := d
      simp only [Memory.wfFrom, Bool.and_eq_true, decide_eq_true_eq] at hn
      have hkk : k = k' := by
        rcases Nat.lt_trichotomy k k' with hlt | heq | hgt
        · have := h k
          rw [Memory.read_cons, if_pos rfl, Memory.read_cons, if_neg (by omega),
            Memory.read_of_wfFrom n (k' + 1) k hn.2 (by omega)] at this
          simp_all
        · exact heq
        · have := h k'
          rw [Memory.read_cons, if_neg (by omega), Memory.read_of_wfFrom m (k + 1) k' hm.2 (by omega),
            Memory.read_cons, if_pos rfl] at this
          simp_all
      subst hkk
      have hv := h k
      simp only [Memory.read_cons, if_pos] at hv
      subst hv
      congr 1
      refine ih n (k + 1) hm.2 hn.2 fun a => ?_
      rcases Nat.lt_or_ge a (k + 1) with hlt | hge
      · rw [Memory.read_of_wfFrom m (k + 1) a hm.2 hlt, Memory.read_of_wfFrom n (k + 1) a hn.2 hlt]
      · have := h a
        rwa [Memory.read_cons, if_neg (by omega), Memory.read_cons, if_neg (by omega)] at this

theorem Memory.ext_of_read (m n : Memory) (hm : m.wf = true) (hn : n.wf = true) (h : ∀ a, m.read a = n.read a) :
    m = n := Memory.ext_from m n 0 hm hn h

end Sys2Proof.Machine
end

