-- ==== Sys2Proof/Laws/Ops.lean ====
section
/-! SUPPORT. One lemma per shared operation, saying everything it can answer: the configuration gate, the buffer
primitives, the append, the check at an end marker, the class and encoder-state gates, fetching. -/

namespace Sys2Proof.Machine

/-! ### Gates -/

theorem configured_of_valid (s : State) (k : StepOutcome) (h : s.params.valid = true) : configured s k = k := by
  simp [configured, h]

theorem configured_of_invalid (s : State) (k : StepOutcome) (h : s.params.valid = false) :
    configured s k = .refused .badConfiguration := by
  simp [configured, h]

theorem configured_eq_next (s : State) (k : StepOutcome) (t : State) (h : configured s k = .next t) :
    s.params.valid = true ∧ k = .next t := by
  unfold configured at h
  split at h
  · exact ⟨‹_›, h⟩
  · cases h

theorem inEncState_eq_next (e : EncState) (s t u : State) (h : inEncState e s t = .next u) :
    s.params.valid = true ∧ s.encState = e ∧ u = answer t .none := by
  obtain ⟨hv, h⟩ := configured_eq_next _ _ _ h
  split at h
  · cases h; exact ⟨hv, ‹_›, rfl⟩
  · cases h

theorem inClass_eq_next (c : ByteClass) (b : Byte) (s : State) (k : StepOutcome) (t : State)
    (h : inClass c b s k = .next t) :
    s.params.valid = true ∧ classify s.params s.rxEsc b = c ∧ k = .next t := by
  obtain ⟨hv, h⟩ := configured_eq_next _ _ _ h
  split at h
  · exact ⟨hv, ‹_›, h⟩
  · cases h

theorem inClass_of_class (c : ByteClass) (b : Byte) (s : State) (k : StepOutcome) (hv : s.params.valid = true)
    (hc : classify s.params s.rxEsc b = c) : inClass c b s k = k := by
  simp [inClass, configured, hv, hc]

theorem finish_ok (t : State) : finish (.ok t) = .next (answer t .none) := rfl

/-! ### Markers and classes -/

/-- What a valid configuration says of the markers and the capacity (R9). -/
theorem params_valid_iff (p : Params) : p.valid = true ↔
    p.startMarker ≠ p.endMarker ∧ p.startMarker ≠ p.escMarker ∧ p.endMarker ≠ p.escMarker ∧ 3 ≤ p.cap := by
  simp [p.valid_eq, and_assoc]

theorem isMarker_iff (p : Params) (b : Byte) : p.isMarker b = true ↔
    b = p.startMarker ∨ b = p.endMarker ∨ b = p.escMarker := by
  simp [Params.isMarker, or_assoc]

theorem isMarker_false_iff (p : Params) (b : Byte) : p.isMarker b = false ↔
    b ≠ p.startMarker ∧ b ≠ p.endMarker ∧ b ≠ p.escMarker := by
  simp [Params.isMarker, and_assoc]

@[simp] theorem classify_literal (p : Params) (b : Byte) : classify p true b = .lit := rfl

@[simp] theorem classify_startMarker (p : Params) : classify p false p.startMarker = .start := by
  simp [classify]

theorem classify_endMarker (p : Params) (h : p.valid = true) : classify p false p.endMarker = .finish := by
  have := (params_valid_iff p).1 h
  simp [classify, this.1.symm]

theorem classify_escMarker (p : Params) (h : p.valid = true) : classify p false p.escMarker = .escape := by
  have := (params_valid_iff p).1 h
  simp [classify, this.2.1.symm, this.2.2.1.symm]

theorem classify_plain (p : Params) (b : Byte) (h : p.isMarker b = false) : classify p false b = .data := by
  have := (isMarker_false_iff p b).1 h
  simp [classify, this]

/-- A class tells the flag and, but for the two that carry a byte, the byte (R65). -/
theorem classify_cases (p : Params) (esc : Bool) (b : Byte) :
    match classify p esc b with
    | .lit => esc = true
    | .start => esc = false ∧ b = p.startMarker
    | .finish => esc = false ∧ b = p.endMarker
    | .escape => esc = false ∧ b = p.escMarker
    | .data => esc = false ∧ p.isMarker b = false := by
  unfold classify
  split_ifs <;> simp_all [Params.isMarker]

/-! ### rx_buf -/

theorem memReads_of_le (s : State) (i n : Nat) (h : i + n ≤ s.params.cap) :
    memReads s i n = .ok ((List.range' i n).map s.rxBuf.read) := by
  induction n generalizing i with
  | zero => rfl
  | succ n ih =>
    have hi : memRead s i = .ok (s.rxBuf.read i) := if_pos (by omega)
    simp only [memReads, hi, ih (i + 1) (by omega), List.range'_succ, List.map_cons]

@[simp] theorem State.held_length (s : State) : s.held.length = s.rxLen := by
  simp [State.held]

theorem State.held_take (s : State) (n : Nat) (h : n ≤ s.rxLen) :
    s.held.take n = (List.range n).map s.rxBuf.read := by
  rw [State.held, ← List.map_take, List.take_range, Nat.min_eq_left h]

/-- The accumulated bytes end in the bytes at rx_len - 2 and rx_len - 1. -/
theorem State.held_drop_two (s : State) (h : 2 ≤ s.rxLen) :
    s.held.drop (s.rxLen - 2) = [s.rxBuf.read (s.rxLen - 2), s.rxBuf.read (s.rxLen - 1)] := by
  obtain ⟨n, hn⟩ : ∃ n, s.rxLen = n + 2 := ⟨s.rxLen - 2, by omega⟩
  rw [State.held, hn, List.range_succ, List.range_succ]
  simp

/-- Equal bytes below equal lengths are equal accumulated bytes. -/
theorem State.held_congr (s t : State) (hl : t.rxLen = s.rxLen)
    (hr : ∀ a, a < s.rxLen → t.rxBuf.read a = s.rxBuf.read a) : t.held = s.held := by
  rw [State.held, State.held, hl]
  exact List.map_congr_left fun a ha => hr a (List.mem_range.1 ha)

/-! ### The append (R131) -/

theorem append_full (s : State) (b : Byte) (h : s.rxLen = s.params.cap) :
    append s b = .ok { s with rxLen := 0 } := if_pos h

theorem append_room (s : State) (b : Byte) (h : s.rxLen < s.params.cap) :
    append s b = .ok { s with rxBuf := s.rxBuf.write s.rxLen b, rxLen := s.rxLen + 1 } := by
  simp [append, memWrite, h, Nat.ne_of_lt h]

theorem append_above (s : State) (b : Byte) (h : s.params.cap < s.rxLen) :
    append s b = .error .rxIndexOutOfRange := by
  simp [append, memWrite, Nat.not_lt.2 (Nat.le_of_lt h), Nat.ne_of_gt h]

/-- Everything an append can answer with rx_len at most CAP. -/
theorem append_cases (s : State) (b : Byte) (h : s.rxLen ≤ s.params.cap) :
    (s.rxLen = s.params.cap ∧ append s b = .ok { s with rxLen := 0 }) ∨
    (s.rxLen < s.params.cap ∧
      append s b = .ok { s with rxBuf := s.rxBuf.write s.rxLen b, rxLen := s.rxLen + 1 }) := by
  rcases Nat.lt_or_eq_of_le h with h | h
  · exact .inr ⟨h, append_room s b h⟩
  · exact .inl ⟨h, append_full s b h⟩

/-- An append that finds room puts the byte at the end of the accumulated ones. -/
theorem held_append_room (s : State) (b : Byte) (h : s.rxBuf.wf = true) :
    ({ s with rxBuf := s.rxBuf.write s.rxLen b, rxLen := s.rxLen + 1 } : State).held = s.held ++ [b] := by
  simp only [State.held, List.range_succ, List.map_append, List.map_cons, List.map_nil]
  rw [Memory.read_write_same _ _ _ h]
  congr 1
  exact List.map_congr_left fun a ha => Memory.read_write_other _ _ _ _ (Nat.ne_of_lt (List.mem_range.1 ha))

/-! ### The CRC bytes (R43, R64) -/

theorem getLsbD_crcOfBytes (hi lo : Byte) (i : Nat) :
    (crcOfBytes hi lo).getLsbD i = if i < 8 then lo.getLsbD i else hi.getLsbD (i - 8) :=
  BitVec.getLsbD_append (x := hi) (y := lo)

@[simp] theorem crcOfBytes_high_low (c : U16) : crcOfBytes (crcHigh c) (crcLow c) = c := by
  refine BitVec.eq_of_getLsbD_eq fun i hi => ?_
  rw [getLsbD_crcOfBytes]
  split
  · simp_all [crcLow]
  · next h =>
    simp only [crcHigh, BitVec.getLsbD_extractLsb']
    rw [show 8 + (i - 8) = i by omega]
    simp [show i - 8 < 8 by omega]

@[simp] theorem crcLow_crcOfBytes (hi lo : Byte) : crcLow (crcOfBytes hi lo) = lo := by
  refine BitVec.eq_of_getLsbD_eq fun i h => ?_
  simp [crcLow, getLsbD_crcOfBytes, h]

@[simp] theorem crcHigh_crcOfBytes (hi lo : Byte) : crcHigh (crcOfBytes hi lo) = hi := by
  refine BitVec.eq_of_getLsbD_eq fun i h => ?_
  simp [crcHigh, getLsbD_crcOfBytes, h]

/-- Two bytes are a CRC value exactly when they are its halves. -/
theorem eq_crcOfBytes_iff (c : U16) (hi lo : Byte) : c = crcOfBytes hi lo ↔ lo = crcLow c ∧ hi = crcHigh c := by
  constructor
  · rintro rfl; simp
  · rintro ⟨rfl, rfl⟩; simp

/-! ### The check at an end marker (R134) -/

theorem endCheck_of_le (s : State) (h : s.rxLen ≤ s.params.cap) :
    endCheck s = .ok
      (if 2 < s.rxLen ∧ crc16 s.params.crc ((List.range (s.rxLen - 2)).map s.rxBuf.read)
            = crcOfBytes (s.rxBuf.read (s.rxLen - 1)) (s.rxBuf.read (s.rxLen - 2))
        then .frame ((List.range (s.rxLen - 2)).map s.rxBuf.read) else .none) := by
  unfold endCheck
  split
  · next h2 =>
    have hr : memReads s 0 (s.rxLen - 2) = .ok ((List.range (s.rxLen - 2)).map s.rxBuf.read) := by
      rw [memReads_of_le s 0 _ (by omega), List.range_eq_range']
    have h1 : memRead s (s.rxLen - 1) = .ok (s.rxBuf.read (s.rxLen - 1)) := if_pos (by omega)
    have h0 : memRead s (s.rxLen - 2) = .ok (s.rxBuf.read (s.rxLen - 2)) := if_pos (by omega)
    simp only [hr, h1, h0, h2, true_and]
    split <;> rfl
  · next h2 => simp [h2]

/-- The check seen on the list of accumulated bytes. -/
theorem endCheck_eq_listCheck (s : State) (h : s.rxLen ≤ s.params.cap) :
    endCheck s = .ok (feedOutput (listCheck s.params s.held)) := by
  rw [endCheck_of_le s h]
  simp only [listCheck, State.held_length]
  rw [State.held_take s _ (Nat.sub_le _ _)]
  by_cases h2 : 2 < s.rxLen
  · have hne : (List.range (s.rxLen - 2)).map s.rxBuf.read ≠ [] := by
      simp only [ne_eq, List.map_eq_nil_iff, List.range_eq_nil]; omega
    rw [State.held_drop_two s (by omega)]
    simp only [h2, true_and, ne_eq, hne, not_false_eq_true, List.cons.injEq, and_true, eq_crcOfBytes_iff]
    split <;> rfl
  · have : s.rxLen - 2 = 0 := by omega
    simp [h2, this, feedOutput]

/-! ### Fetching -/

/-- Placing a table word leaves the instance as it is (R9, R11). -/
@[simp] theorem State.withFetchWord_params (s : State) (nbits w : Nat) : (s.withFetchWord nbits w).params = s.params := by
  unfold State.withFetchWord placeWord placeEsc
  repeat' split
  all_goals rfl

theorem fetch_nil (s : State) (h : s.issued = []) : fetch s = none := by simp [fetch, h]

theorem fetch_cons (s : State) (w : PortWord) (rest : List PortWord) (h : s.issued = w :: rest) :
    fetch s = some (w, { s with issued := rest }) := by simp [fetch, h]

/-- Everything a step can do: it is idle, it runs the operation of the word at the head, or it refuses a word with
two strobes. -/
theorem step_cases (s : State) :
    (s.issued = [] ∧ step s = idleStep s) ∨
    ∃ w rest, s.issued = w :: rest ∧
      ((∃ i, decode s.params w = .ok i ∧ step s = exec i { s with issued := rest }) ∨
       (decode s.params w = .error .noStrobe ∧ step s = idleStep { s with issued := rest }) ∨
       (decode s.params w = .error .twoStrobes ∧ step s = .refused .twoStrobes)) := by
  rcases h : s.issued with _ | ⟨w, rest⟩
  · exact .inl ⟨rfl, by simp [step, fetch_nil s h]⟩
  · refine .inr ⟨w, rest, rfl, ?_⟩
    have hs : step s = runFetched exec w { s with issued := rest } := by simp [step, fetch_cons s w rest h]
    rw [hs]
    unfold runFetched
    rcases hd : decode s.params w with e | i
    · cases e
      · exact .inr (.inl ⟨rfl, by simp⟩)
      · exact .inr (.inr ⟨rfl, by simp⟩)
    · exact .inl ⟨i, rfl, by simp⟩

/-! ### Sequences of operations -/

theorem runOps_cons (i : Instr) (rest : List Instr) (s t u : State) (outs : List Output)
    (h : exec i s = .next t) (hr : runOps rest t = .next (u, outs)) :
    runOps (i :: rest) s = .next (u, t.output :: outs) := by
  simp [runOps, h, hr]

theorem runOps_append (xs ys : List Instr) (s t u : State) (outs outs' : List Output)
    (h : runOps xs s = .next (t, outs)) (hr : runOps ys t = .next (u, outs')) :
    runOps (xs ++ ys) s = .next (u, outs ++ outs') := by
  induction xs generalizing s outs with
  | nil => simp only [runOps, Host.Outcome.next.injEq, Prod.mk.injEq] at h; obtain ⟨rfl, rfl⟩ := h; exact hr
  | cons i xs ih =>
    simp only [runOps] at h
    split at h
    · cases h
    · cases h
    · next v hv =>
      split at h
      · cases h
      · cases h
      · next w os hw => cases h; exact runOps_cons i _ s v u _ hv (ih v os hw)

end Sys2Proof.Machine
end

