-- ==== Sys2Proof/Laws/PerInstr.lean ====
section
/-! SUPPORT. One statement per constructor of Instr, about the instruction as syntax: the word the encoder writes
for it lies in its row of spec/opcode_table.json (format, width, match under mask). -/

namespace Sys2Proof

/-- The table's "format" of a port word. -/
def PortWord.format : PortWord → String
  | .decByte _ => "DEC-byte"
  | .crc _ => "CRC-port"
  | .enc _ => "ENC-port"
  | .dec _ => "DEC-port"
  | .reset _ => "RESET-port"

/-- The word as a number, bit 0 its least significant bit, as the table numbers it. -/
def PortWord.bits : PortWord → Nat
  | .decByte w => w.toNat
  | .crc w => w.toNat
  | .enc w => w.toNat
  | .dec w => w.toNat
  | .reset w => w.toNat

namespace Laws.TableRow

/-- A row of the table: its "format", "mask" and "match". -/
structure Row where
  format : String
  mask   : Nat
  value  : Nat
  deriving DecidableEq, Repr

/-- The row of each constructor; the three marker rows have the markers of the instance in their match. -/
def rowOf (p : Params) : Instr → Row
  | .decLit _ => ⟨"DEC-byte", 0x100, 0x100⟩
  | .decStart => ⟨"DEC-byte", 0x1FF, 0x000 + p.startMarker.toNat⟩
  | .decEnd => ⟨"DEC-byte", 0x1FF, 0x000 + p.endMarker.toNat⟩
  | .decEsc => ⟨"DEC-byte", 0x1FF, 0x000 + p.escMarker.toNat⟩
  | .decData _ => ⟨"DEC-byte", 0x100, 0x000⟩
  | .crcClr => ⟨"CRC-port", 0x300, 0x200⟩
  | .crcUpd _ => ⟨"CRC-port", 0x300, 0x100⟩
  | .crcRd => ⟨"CRC-port", 0x300, 0x000⟩
  | .encBegin => ⟨"ENC-port", 0x700, 0x400⟩
  | .encPut _ => ⟨"ENC-port", 0x700, 0x200⟩
  | .encEnd => ⟨"ENC-port", 0x700, 0x100⟩
  | .feed _ => ⟨"DEC-port", 0x100, 0x100⟩
  | .reset => ⟨"RESET-port", 0x1, 0x1⟩

/-- In every instance the encoder's word of `i` has its row's format and matches the row under its mask. -/
def Statement (i : Instr) : Prop :=
  ∀ p : Params, (encodeWord p i).format = (rowOf p i).format ∧
    (encodeWord p i).bits &&& (rowOf p i).mask = (rowOf p i).value

/-- A nine-bit word with bit 8 clear is its byte. -/
theorem clear_pair_bits : ∀ b : Byte, (PortWord.decByte (0#1 ++ b)).bits &&& 0x1FF = 0x000 + b.toNat := by
  decide

theorem decLit (b : Byte) : Statement (.decLit b) := fun _ =>
  ⟨rfl, (by decide : ∀ b : Byte, (PortWord.decByte (1#1 ++ b)).bits &&& 0x100 = 0x100) b⟩
theorem decStart : Statement .decStart := fun p => ⟨rfl, clear_pair_bits p.startMarker⟩
theorem decEnd : Statement .decEnd := fun p => ⟨rfl, clear_pair_bits p.endMarker⟩
theorem decEsc : Statement .decEsc := fun p => ⟨rfl, clear_pair_bits p.escMarker⟩
theorem decData (b : Byte) : Statement (.decData b) := fun _ =>
  ⟨rfl, (by decide : ∀ b : Byte, (PortWord.decByte (0#1 ++ b)).bits &&& 0x100 = 0x000) b⟩
theorem crcClr : Statement .crcClr := fun _ =>
  ⟨rfl, (by decide : (PortWord.crc (0b10#2 ++ 0#8)).bits &&& 0x300 = 0x200)⟩
theorem crcUpd (b : Byte) : Statement (.crcUpd b) := fun _ =>
  ⟨rfl, (by decide : ∀ b : Byte, (PortWord.crc (0b01#2 ++ b)).bits &&& 0x300 = 0x100) b⟩
theorem crcRd : Statement .crcRd := fun _ =>
  ⟨rfl, (by decide : (PortWord.crc (0b00#2 ++ 0#8)).bits &&& 0x300 = 0x000)⟩
theorem encBegin : Statement .encBegin := fun _ =>
  ⟨rfl, (by decide : (PortWord.enc (0b100#3 ++ 0#8)).bits &&& 0x700 = 0x400)⟩
theorem encPut (b : Byte) : Statement (.encPut b) := fun _ =>
  ⟨rfl, (by decide : ∀ b : Byte, (PortWord.enc (0b010#3 ++ b)).bits &&& 0x700 = 0x200) b⟩
theorem encEnd : Statement .encEnd := fun _ =>
  ⟨rfl, (by decide : (PortWord.enc (0b001#3 ++ 0#8)).bits &&& 0x700 = 0x100)⟩
theorem feed (b : Byte) : Statement (.feed b) := fun _ =>
  ⟨rfl, (by decide : ∀ b : Byte, (PortWord.dec (1#1 ++ b)).bits &&& 0x100 = 0x100) b⟩
theorem reset : Statement .reset := fun _ =>
  ⟨rfl, (by decide : (PortWord.reset 1#1).bits &&& 0x1 = 0x1)⟩

end Laws.TableRow

end Sys2Proof
end

