-- ==== Sys2Proof/Laws/Units.lean ====
section
/-! SUPPORT. What the meanings can answer: the appending classes and the end marker in both directions, and one
inversion of `exec` that names every next state, from which frames and invariants follow without unfolding. -/

namespace Sys2Proof.Machine

/-- The state after an appending class (R131, R132, R136). -/
def afterAppend (s : State) (b : Byte) : State :=
  if s.rxLen = s.params.cap then { s with rxLen := 0, rxEsc := false, output := .none }
  else { s with rxBuf := s.rxBuf.write s.rxLen b, rxLen := s.rxLen + 1, rxEsc := false, output := .none }

theorem finish_append_of_le (s : State) (b : Byte) (h : s.rxLen ≤ s.params.cap) :
    finish ((append s b).map clearEsc) = .next (afterAppend s b) := by
  rcases append_cases s b h with ⟨hl, ha⟩ | ⟨hl, ha⟩ <;> rw [ha]
  · simp [afterAppend, hl, finish, Except.map, clearEsc, answer]
  · simp [afterAppend, Nat.ne_of_lt hl, finish, Except.map, clearEsc, answer]

theorem finish_append_eq_next (s t : State) (b : Byte) (h : finish ((append s b).map clearEsc) = .next t) :
    s.rxLen ≤ s.params.cap ∧ t = afterAppend s b := by
  rcases Nat.lt_or_ge s.params.cap s.rxLen with hl | hl
  · rw [append_above s b hl] at h; cases h
  · rw [finish_append_of_le s b hl] at h
    cases h
    exact ⟨hl, rfl⟩

/-- Outside DEC an append changes nothing. -/
theorem afterAppend_frame (s : State) (b : Byte) :
    (afterAppend s b).crcAcc = s.crcAcc ∧ (afterAppend s b).encState = s.encState
      ∧ (afterAppend s b).encCrc = s.encCrc ∧ (afterAppend s b).tx = s.tx
      ∧ (afterAppend s b).params = s.params ∧ (afterAppend s b).issued = s.issued
      ∧ (afterAppend s b).rxEsc = false ∧ (afterAppend s b).output = .none := by
  unfold afterAppend; split <;> simp

/-- The append of the machine is the append of the list decoder. -/
theorem afterAppend_held (s : State) (b : Byte) (h : s.rxBuf.wf = true) :
    (afterAppend s b).held = listAppend s.params s.held b := by
  unfold afterAppend listAppend
  by_cases hl : s.rxLen = s.params.cap
  · simp [hl, State.held]
  · simp only [hl, if_false, State.held_length]
    exact held_append_room s b h

theorem endEffect_of_le (s : State) (h : s.rxLen ≤ s.params.cap) :
    endEffect s = .next (answer s (feedOutput (listCheck s.params s.held))) := by
  simp [endEffect, endCheck_eq_listCheck s h]

theorem endEffect_eq_next (s t : State) (h : endEffect s = .next t) :
    ∃ o, endCheck s = .ok o ∧ t = answer s o := by
  unfold endEffect at h
  split at h
  · cases h; exact ⟨_, ‹_›, rfl⟩
  · cases h

/-- A payload the check hands over is the body without its last two bytes, and those are its CRC (R134). -/
theorem listCheck_eq_some (p : Params) (buf q : List Byte) (h : listCheck p buf = some q) :
    q = buf.take (buf.length - 2) ∧ 2 < buf.length
      ∧ buf.drop (buf.length - 2) = [crcLow (crc16 p.crc q), crcHigh (crc16 p.crc q)] := by
  simp only [listCheck] at h
  split at h
  · next hc =>
    cases h
    refine ⟨rfl, ?_, hc.2⟩
    by_contra hlt
    exact hc.1 (by rw [show buf.length - 2 = 0 by omega]; rfl)
  · cases h

/-- What a FEED can answer, by the class of its byte. -/
theorem execFeed_eq_next (b : Byte) (s t : State) (h : execFeed b s = .next t) :
    s.params.valid = true ∧
    match classify s.params s.rxEsc b with
    | .lit => s.rxLen ≤ s.params.cap ∧ t = afterAppend s b
    | .start => t = { s with rxLen := 0, output := .none }
    | .finish => ∃ o, endCheck s = .ok o ∧ t = answer s o
    | .escape => t = { s with rxEsc := true, output := .none }
    | .data => s.rxLen ≤ s.params.cap ∧ t = afterAppend s b := by
  obtain ⟨hv, h⟩ := configured_eq_next _ _ _ h
  refine ⟨hv, ?_⟩
  rcases hk : classify s.params s.rxEsc b <;> rw [hk] at h <;> simp only at h ⊢
  · exact finish_append_eq_next s t b h
  · cases h; rfl
  · exact endEffect_eq_next s t h
  · cases h; rfl
  · exact finish_append_eq_next s t b h

/-- Every next state of every operation. -/
theorem exec_eq_next (i : Instr) (s t : State) (h : exec i s = .next t) :
    s.params.valid = true ∧
    match i with
    | .decLit b => s.rxEsc = true ∧ s.rxLen ≤ s.params.cap ∧ t = afterAppend s b
    | .decStart => s.rxEsc = false ∧ t = { s with rxLen := 0, output := .none }
    | .decEnd => s.rxEsc = false ∧ ∃ o, endCheck s = .ok o ∧ t = answer s o
    | .decEsc => s.rxEsc = false ∧ t = { s with rxEsc := true, output := .none }
    | .decData b => s.rxEsc = false ∧ s.params.isMarker b = false ∧ s.rxLen ≤ s.params.cap ∧ t = afterAppend s b
    | .crcClr => t = { s with crcAcc := crcInit s.params.crc, output := .none }
    | .crcUpd b => t = { s with crcAcc := crcUpd s.params.crc s.crcAcc b, output := .none }
    | .crcRd => t = { s with output := .crc s.crcPort }
    | .encBegin => s.encState = .idle ∧
        t = { s with tx := s.tx ++ [s.params.startMarker], encCrc := crcInit s.params.crc, encState := .body,
                     output := .none }
    | .encPut b => s.encState = .body ∧
        t = { s with tx := s.tx ++ stuff s.params b, encCrc := crcUpd s.params.crc s.encCrc b, output := .none }
    | .encEnd => s.encState = .body ∧
        t = { s with tx := s.tx ++ closingBytes s.params (crcFin s.params.crc s.encCrc), encState := .idle,
                     output := .none }
    | .feed b => execFeed b s = .next t
    | .reset => t = { s with crcAcc := crcInit s.params.crc, encState := .idle, rxLen := 0, rxEsc := false,
                             output := .none } := by
  have cls : ∀ c b k, inClass c b s k = .next t → s.params.valid = true ∧ classify s.params s.rxEsc b = c
      ∧ k = .next t := fun c b k => inClass_eq_next c b s k t
  have table := classify_cases s.params s.rxEsc
  cases i with
  | decLit b =>
    obtain ⟨hv, hc, h⟩ := cls _ _ _ h
    have := table b; rw [hc] at this
    exact ⟨hv, this, finish_append_eq_next s t b h⟩
  | decData b =>
    obtain ⟨hv, hc, h⟩ := cls _ _ _ h
    have := table b; rw [hc] at this
    exact ⟨hv, this.1, this.2, finish_append_eq_next s t b h⟩
  | decStart =>
    obtain ⟨hv, hc, h⟩ := cls _ _ _ h
    have := table s.params.startMarker; rw [hc] at this
    cases h; exact ⟨hv, this.1, rfl⟩
  | decEsc =>
    obtain ⟨hv, hc, h⟩ := cls _ _ _ h
    have := table s.params.escMarker; rw [hc] at this
    cases h; exact ⟨hv, this.1, rfl⟩
  | decEnd =>
    obtain ⟨hv, hc, h⟩ := cls _ _ _ h
    have := table s.params.endMarker; rw [hc] at this
    exact ⟨hv, this.1, endEffect_eq_next s t h⟩
  | encBegin => obtain ⟨hv, he, h⟩ := inEncState_eq_next _ _ _ _ h; subst h; exact ⟨hv, he, rfl⟩
  | encPut b => obtain ⟨hv, he, h⟩ := inEncState_eq_next _ _ _ _ h; subst h; exact ⟨hv, he, rfl⟩
  | encEnd => obtain ⟨hv, he, h⟩ := inEncState_eq_next _ _ _ _ h; subst h; exact ⟨hv, he, rfl⟩
  | crcClr => obtain ⟨hv, h⟩ := configured_eq_next _ _ _ h; cases h; exact ⟨hv, rfl⟩
  | crcUpd b => obtain ⟨hv, h⟩ := configured_eq_next _ _ _ h; cases h; exact ⟨hv, rfl⟩
  | crcRd => obtain ⟨hv, h⟩ := configured_eq_next _ _ _ h; cases h; exact ⟨hv, rfl⟩
  | feed b => exact ⟨(configured_eq_next _ _ _ h).1, h⟩
  | reset => obtain ⟨hv, h⟩ := configured_eq_next _ _ _ h; cases h; exact ⟨hv, rfl⟩

end Sys2Proof.Machine
end

