-- ==== Sys2Proof/Tests/Slice0.lean ====
section
/-! SUPPORT. Tests: ill-formed terms the checks refuse; words written out from opcode_table.json; one-step vectors
of 95_test_vectors.md (their ids in the comments, all at the reference instance); and for every obligation with
hypotheses a state and operands that meet them, at the edges where clauses meet. -/

namespace Sys2Proof.Tests

open Sys2Proof.Machine

/-! ### States -/

/-- A state of the reference instance with capacity `cap`, the bytes `buf` accumulated and the flag `esc`. -/
def dec (cap : Nat) (buf : List Byte) (esc : Bool) : State :=
  { State.powerOn (Config.reference cap) with
    rxBuf := (buf.zipIdx).foldl (fun m c => m.write c.2 c.1) [], rxLen := buf.length, rxEsc := esc }

/-- A state of the reference instance with the encoder in the given state. -/
def enc (e : EncState) (crc : U16) : State :=
  { State.powerOn (Config.reference 8) with encState := e, encCrc := crc }

/-- A state of the reference instance with the given CRC accumulator. -/
def acc (a : U16) : State := { State.powerOn (Config.reference 8) with crcAcc := a }

/-- What the decoder holds and answers after an operation. -/
def decView (x : StepOutcome) : Option (List Byte × Bool × Output) :=
  (nextOf x).map fun t => (t.held, t.rxEsc, t.output)

/-- What the encoder has emitted, its state and its CRC after an operation. -/
def encView (x : StepOutcome) : Option (List Byte × EncState × U16) :=
  (nextOf x).map fun t => (t.tx, t.encState, t.encCrc)

/-- The accumulator and the result after an operation. -/
def crcView (x : StepOutcome) : Option (U16 × Output) :=
  (nextOf x).map fun t => (t.crcAcc, t.output)

/-- The invariant as a check that runs. -/
def invCheck (s : State) : Bool :=
  s.params.valid && decide (s.rxLen ≤ s.params.cap) && s.rxBuf.wf && s.rxBuf.below s.params.cap
    && s.output.fits s.params.cap

theorem inv_of_check (s : State) (h : invCheck s = true) : Inv s := by
  simp only [invCheck, Bool.and_eq_true, decide_eq_true_eq] at h
  exact ⟨h.1.1.1.1, h.1.1.1.2, h.1.1.2, h.1.2, h.2⟩

/-! ### Ill-formed terms (R65, R9) -/

theorem test_data_start_ill_formed : (Instr.decData 0x01#8).wellFormed (Config.reference 8) = false := by decide
theorem test_data_end_ill_formed : (Instr.decData 0x04#8).wellFormed (Config.reference 8) = false := by decide
theorem test_data_esc_ill_formed : (Instr.decData 0x10#8).wellFormed (Config.reference 8) = false := by decide
theorem test_data_plain_well_formed : (Instr.decData 0x41#8).wellFormed (Config.reference 8) = true := by decide
theorem test_start_end_equal_invalid : (Params.make 0x01#8 0x01#8 0x10#8 8 .pinned).valid = false := by
  decide
theorem test_start_esc_equal_invalid : (Params.make 0x01#8 0x04#8 0x01#8 8 .pinned).valid = false := by
  decide
theorem test_end_esc_equal_invalid : (Params.make 0x01#8 0x04#8 0x04#8 8 .pinned).valid = false := by
  decide
theorem test_cap_two_invalid : (Config.reference 2).valid = false := by decide
theorem test_cap_three_valid : (Config.reference 3).valid = true := by decide

/-! ### Words written out from opcode_table.json -/

theorem test_decode_decLit : decode (Config.reference 8) (.decByte 0b100000001#9) = .ok (.decLit 0x01#8) := by decide
theorem test_decode_decStart : decode (Config.reference 8) (.decByte 0b000000001#9) = .ok .decStart := by decide
theorem test_decode_decEnd : decode (Config.reference 8) (.decByte 0b000000100#9) = .ok .decEnd := by decide
theorem test_decode_decEsc : decode (Config.reference 8) (.decByte 0b000010000#9) = .ok .decEsc := by decide
theorem test_decode_decData : decode (Config.reference 8) (.decByte 0b010101010#9) = .ok (.decData 0xAA#8) := by decide
theorem test_decode_crcClr : decode (Config.reference 8) (.crc 0b1010110011#10) = .ok .crcClr := by decide
theorem test_decode_crcUpd : decode (Config.reference 8) (.crc 0b0111011110#10) = .ok (.crcUpd 0xDE#8) := by decide
theorem test_decode_crcRd : decode (Config.reference 8) (.crc 0b0000000000#10) = .ok .crcRd := by decide
theorem test_decode_encBegin : decode (Config.reference 8) (.enc 0b10011111111#11) = .ok .encBegin := by decide
theorem test_decode_encPut : decode (Config.reference 8) (.enc 0b01001000001#11) = .ok (.encPut 0x41#8) := by decide
theorem test_decode_encEnd : decode (Config.reference 8) (.enc 0b00100000000#11) = .ok .encEnd := by decide
theorem test_decode_feed : decode (Config.reference 8) (.dec 0b100010000#9) = .ok (.feed 0x10#8) := by decide
theorem test_decode_reset : decode (Config.reference 8) (.reset 0b1#1) = .ok .reset := by decide
theorem test_decode_two_crc_strobes : decode (Config.reference 8) (.crc 0b1100000001#10) = .error .twoStrobes := by
  decide
theorem test_decode_two_enc_strobes : decode (Config.reference 8) (.enc 0b01100000001#11) = .error .twoStrobes := by
  decide
theorem test_decode_no_feed_strobe : decode (Config.reference 8) (.dec 0b000000100#9) = .error .noStrobe := by decide
theorem test_decode_no_reset_strobe : decode (Config.reference 8) (.reset 0b0#1) = .error .noStrobe := by decide
theorem test_table_word_begin : decodeTableWord 16 0x400 = some .encBegin := by decide
theorem test_table_word_lit : decodeTableWord 16 0x100 = some (.decLit 0x00#8) := by decide
theorem test_table_word_put : decodeTableWord 11 0x241 = some (.encPut 0x41#8) := by decide
theorem test_table_word_out_of_range : decodeTableWord 16 0x800 = none := by decide

/-! ### The CRC unit (vectors 2.1 and 2.2) -/

/-- "123456789" of section 2.1. -/
def digits : List Byte := [0x31#8, 0x32#8, 0x33#8, 0x34#8, 0x35#8, 0x36#8, 0x37#8, 0x38#8, 0x39#8]

/-- The row "reference instance" of section 2.1. -/
theorem test_crc16_reference : crc16 (.family Config.referenceCrc) digits = 0x31C3#16 := by decide +kernel
/-- The row "X-25": reflected, with an initial value and a final xor. -/
theorem test_crc16_x25 : crc16 (.family ⟨0x1021#16, 0xFFFF#16, true, 0xFFFF#16⟩) digits = 0x906E#16 := by
  decide +kernel
/-- The row "ARC". -/
theorem test_crc16_arc : crc16 (.family ⟨0x8005#16, 0x0000#16, true, 0x0000#16⟩) digits = 0xBB3D#16 := by
  decide +kernel
/-- The row "CCITT-FALSE". -/
theorem test_crc16_ccitt_false : crc16 (.family ⟨0x1021#16, 0xFFFF#16, false, 0x0000#16⟩) digits = 0x29B1#16 := by
  decide +kernel
theorem test_rev16 : rev16 0x8005#16 = 0xA001#16 := by decide

/-- V-C10. -/
theorem test_crcClr_from_any : crcView (exec .crcClr (acc 0xC457#16)) = some (0x0000#16, .none) := by decide
/-- V-C5. -/
theorem test_crcUpd_no_residue : crcView (exec (.crcUpd 0x10#8) (acc 0x0772#16)) = some (0x10D6#16, .none) := by
  decide
/-- V-C8. -/
theorem test_crcUpd_all_ones : crcView (exec (.crcUpd 0x00#8) (acc 0xFFFF#16)) = some (0xE1F0#16, .none) := by
  decide
/-- V-C6, its last operation. -/
theorem test_crcRd_keeps_accumulator : crcView (exec .crcRd (acc 0xC457#16)) = some (0xC457#16, .crc 0xC457#16) := by
  decide

/-! ### The encoder (vectors 3.1 and 3.2) -/

/-- V-E3. -/
theorem test_frame_of_start : encodeFrame (Config.reference 8) [0x01#8]
    = [0x01#8, 0x10#8, 0x01#8, 0x21#8, 0x10#8, 0x10#8, 0x04#8] := by decide
/-- V-E8. -/
theorem test_frame_of_all_markers : encodeFrame (Config.reference 8) [0x01#8, 0x04#8, 0x10#8]
    = [0x01#8, 0x10#8, 0x01#8, 0x10#8, 0x04#8, 0x10#8, 0x10#8, 0xC5#8, 0xE9#8, 0x04#8] := by decide +kernel
/-- V-E20. -/
theorem test_encBegin_emits_start : encView (exec .encBegin (enc .idle 0x1234#16)) = some ([0x01#8], .body, 0x0000#16) := by
  decide
/-- V-E30. -/
theorem test_encBegin_refused_in_body : refusalOf (exec .encBegin (enc .body 0x0000#16)) = some .encOutOfOrder := by
  decide
/-- V-E24. -/
theorem test_encPut_esc_doubled : encView (exec (.encPut 0x10#8) (enc .body 0x0000#16))
    = some ([0x10#8, 0x10#8], .body, 0x1231#16) := by decide
/-- V-E21. -/
theorem test_encPut_plain : encView (exec (.encPut 0x41#8) (enc .body 0x0000#16)) = some ([0x41#8], .body, 0x58E5#16) := by
  decide
/-- V-E25. -/
theorem test_encEnd_low_byte_first : encView (exec .encEnd (enc .body 0x1021#16))
    = some ([0x21#8, 0x10#8, 0x10#8, 0x04#8], .idle, 0x1021#16) := by decide
/-- V-E27. -/
theorem test_encEnd_both_stuffed : encView (exec .encEnd (enc .body 0x0401#16))
    = some ([0x10#8, 0x01#8, 0x10#8, 0x04#8, 0x04#8], .idle, 0x0401#16) := by decide

/-! ### The decoder (vectors 4.1) -/

/-- V-D5. -/
theorem test_decLit_end_is_data : decView (exec (.decLit 0x04#8) (dec 8 [0x03#8] true))
    = some ([0x03#8, 0x04#8], false, .none) := by decide
/-- V-D19. -/
theorem test_decLit_overflow_clears_flag : decView (exec (.decLit 0x04#8) (dec 3 [0xAA#8, 0xBB#8, 0xCC#8] true))
    = some ([], false, .none) := by decide
/-- V-D2. -/
theorem test_decStart_empties : decView (exec .decStart (dec 8 [0x41#8, 0x42#8] false)) = some ([], false, .none) := by
  decide
/-- V-D16. -/
theorem test_decStart_full_buffer : decView (exec .decStart (dec 3 [0x02#8, 0x42#8, 0x20#8] false))
    = some ([], false, .none) := by decide
/-- V-D15. -/
theorem test_decEnd_full_buffer_delivers : decView (exec .decEnd (dec 3 [0x02#8, 0x42#8, 0x20#8] false))
    = some ([0x02#8, 0x42#8, 0x20#8], false, .frame [0x02#8]) := by decide
/-- V-D10. -/
theorem test_decEnd_big_endian_rejected : decView (exec .decEnd (dec 8 [0x02#8, 0x20#8, 0x42#8] false))
    = some ([0x02#8, 0x20#8, 0x42#8], false, .none) := by decide
/-- V-D17. -/
theorem test_decEsc_full_buffer_kept : decView (exec .decEsc (dec 3 [0x02#8, 0x42#8, 0x20#8] false))
    = some ([0x02#8, 0x42#8, 0x20#8], true, .none) := by decide
/-- V-D1. -/
theorem test_decData_appends : decView (exec (.decData 0x41#8) (dec 8 [] false)) = some ([0x41#8], false, .none) := by
  decide
/-- V-D18. -/
theorem test_decData_overflow : decView (exec (.decData 0x41#8) (dec 3 [0xAA#8, 0xBB#8, 0xCC#8] false))
    = some ([], false, .none) := by decide
/-- V-D6. -/
theorem test_feed_escaped_start_is_data : decView (exec (.feed 0x01#8) (dec 8 [0x03#8] true))
    = some ([0x03#8, 0x01#8], false, .none) := by decide
/-- V-D12. -/
theorem test_feed_end_two_bytes_short : decView (exec (.feed 0x04#8) (dec 8 [0x00#8, 0x00#8] false))
    = some ([0x00#8, 0x00#8], false, .none) := by decide
/-- V-D21. -/
theorem test_reset_drops_pending_escape : decView (exec .reset (dec 8 [0x03#8] true)) = some ([], false, .none) := by
  decide
/-- V-E31. -/
theorem test_reset_abandons_frame : (encView (exec .reset (enc .body 0x1021#16))).map (fun v => (v.1, v.2.1))
    = some ([], .idle) := by decide

/-! ### Steps -/

/-- The first step after reset runs the placed operation, in the instance reset started: START is that instance's. -/
theorem test_step_runs_placed_begin : (encView (step (State.reset.withFetchWord 16 0x400))).map
    (fun v => (v.1, v.2.1)) = some ([State.reset.params.startMarker], .body) := by rfl
/-- The table's DEC.START word is placed as an instance with START = 55 spells it. -/
theorem test_placed_start_respelled : ((State.powerOn (Params.make 0x55#8 0x04#8 0x10#8 8 .pinned)).withFetchWord 9 0x001).issued
    = [.decByte 0b001010101#9] := by decide
/-- A DEC-byte word of class DEC.LIT carries rx_esc = 1. -/
theorem test_step_runs_placed_lit : decView (step (State.reset.withFetchWord 16 0x104)) = some ([0x04#8], false, .none) := by
  decide
/-- R72: frame_valid, frame_len and frame_data in a delivering step. -/
theorem test_frame_ports : (nextOf (exec (.feed 0x04#8) (dec 8 [0x02#8, 0x42#8, 0x20#8] false))).map
    (fun t => (t.frameValid, t.frameLen, t.frameData)) = some (true, some 1, some [0x02#8]) := by decide
/-- R33, R72, log entry 18: with bytes held but nothing delivered, no port shows their number. -/
theorem test_frame_ports_silent : (nextOf (exec (.feed 0x41#8) (dec 8 [0x02#8, 0x42#8, 0x20#8] false))).map
    (fun t => (t.frameValid, t.frameLen, t.frameData)) = some (false, none, none) := by decide

/-! ### Witnesses: the hypotheses of each obligation are met -/

/-- A buffer that delivers at an end marker, below capacity. -/
def good : State := dec 8 [0x02#8, 0x42#8, 0x20#8] false
/-- The same with CAP = 3, so that it is full. -/
def full : State := dec 3 [0x02#8, 0x42#8, 0x20#8] false
/-- One byte below a full buffer. -/
def nearFull : State := dec 4 [0x02#8, 0x42#8, 0x20#8] false

theorem inv_good : Inv good := inv_of_check _ (by decide)
theorem inv_full : Inv full := inv_of_check _ (by decide)
theorem inv_nearFull : Inv nearFull := inv_of_check _ (by decide)
theorem inv_esc : Inv { full with rxEsc := true } := inv_of_check _ (by decide)

theorem test_witness_CrcClrLoadsInitialValue : (acc 0x1234#16).params.valid = true := by decide
theorem test_witness_CrcUpdAdvancesAccumulator : (acc 0xFFFF#16).params.valid = true := by decide
theorem test_witness_CrcRdReturnsFinalValue : (acc 0xC457#16).params.valid = true := by decide
theorem test_witness_CrcSequenceComputesCrc16 : State.reset.params.valid = true
    ∧ State.reset.crcAcc = crcInit State.reset.params.crc := ⟨rfl, rfl⟩
theorem test_witness_EncBeginOpensFrame : (enc .idle 0x0000#16).params.valid = true
    ∧ (enc .idle 0x0000#16).encState = .idle := by decide
theorem test_witness_EncPutEmitsStuffedByte : (enc .body 0x0000#16).params.valid = true
    ∧ (enc .body 0x0000#16).encState = .body := by decide
theorem test_witness_EncEndClosesFrame : (enc .body 0x0401#16).params.valid = true
    ∧ (enc .body 0x0401#16).encState = .body := by decide
theorem test_witness_EncCallsOutOfOrderRefused : (enc .body 0x0000#16).params.valid = true
    ∧ (enc .body 0x0000#16).encState = .body ∧ (enc .idle 0x0000#16).params.valid = true
    ∧ (enc .idle 0x0000#16).encState = .idle := by decide
theorem test_witness_EncodeEmitsExactlyTheFrame : Inv full ∧ full.encState = .idle
    ∧ [Instr.crcClr, .encBegin, .feed 0x04#8, .encPut 0x41#8, .crcRd, .encEnd].filter (fun i => i.unit == some .enc)
        = encodeOps [0x41#8]
    ∧ ∀ i ∈ [Instr.crcClr, .encBegin, .feed 0x04#8, .encPut 0x41#8, .crcRd, .encEnd],
        i.unit = some .enc ∨ i.unit = some .crc ∨ ∃ b, i = .feed b :=
  ⟨inv_full, rfl, rfl, by simp [Instr.unit]⟩
theorem test_witness_FrameDelimitersAreTheOnlyOnes : (Config.reference 3).valid = true := by decide
theorem test_witness_FeedRunsTheClassOfItsByte : Inv good ∧ Inv { full with rxEsc := true } := ⟨inv_good, inv_esc⟩
/-- Both clauses of the append: a full buffer, and one byte below. -/
theorem test_witness_DecLitAppendsAnyByte : Inv { full with rxEsc := true }
    ∧ ({ full with rxEsc := true } : State).rxLen = ({ full with rxEsc := true } : State).params.cap
    ∧ Inv { nearFull with rxEsc := true } ∧ nearFull.rxLen + 1 = nearFull.params.cap :=
  ⟨inv_esc, by decide, inv_of_check _ (by decide), by decide⟩
theorem test_witness_DecStartEmptiesBuffer : full.params.valid = true ∧ full.rxEsc = false := by decide
/-- A buffer that delivers and one of two bytes that cannot. -/
theorem test_witness_DecEndDeliversCheckedPayload : Inv full ∧ full.rxEsc = false
    ∧ Inv (dec 3 [0x00#8, 0x00#8] false) ∧ (dec 3 [0x00#8, 0x00#8] false).rxEsc = false :=
  ⟨inv_full, by decide, inv_of_check _ (by decide), by decide⟩
theorem test_witness_DecEscSetsLiteralFlag : full.params.valid = true ∧ full.rxEsc = false := by decide
theorem test_witness_DecDataAppendsPlainByte : Inv full ∧ full.rxEsc = false
    ∧ full.params.isMarker 0x41#8 = false ∧ full.rxLen = full.params.cap
    ∧ Inv nearFull ∧ nearFull.rxEsc = false ∧ nearFull.params.isMarker 0x41#8 = false
    ∧ nearFull.rxLen + 1 = nearFull.params.cap :=
  ⟨inv_full, by decide, by decide, by decide, inv_nearFull, by decide, by decide, by decide⟩
/-- A plain and a literal byte, and each unescaped marker, on a full buffer. -/
theorem test_witness_AppendGuardFiresOnlyInAppend : Inv full ∧ full.rxLen = full.params.cap ∧ full.rxEsc = false
    ∧ full.params.isMarker 0x41#8 = false ∧ full.params.endMarker = 0x04#8 ∧ full.params.escMarker = 0x10#8
    ∧ full.params.startMarker = 0x01#8 ∧ Inv { full with rxEsc := true } :=
  ⟨inv_full, by decide, by decide, by decide, by decide, by decide, by decide, inv_esc⟩
theorem test_witness_ClassRowNeedsItsCondition : full.params.valid = true ∧ full.rxEsc = false
    ∧ full.params.isMarker 0x01#8 = true ∧ ({ full with rxEsc := true } : State).params.valid = true := by decide
theorem test_witness_DecoderRefinesListDecoder : Inv full := inv_full
theorem test_witness_UnstuffingInvertsStuffing : Inv (dec 3 [] false) ∧ (dec 3 [] false).rxLen = 0
    ∧ (dec 3 [] false).rxEsc = false ∧ [0x01#8, 0x04#8, 0x10#8].length ≤ (dec 3 [] false).params.cap :=
  ⟨inv_of_check _ (by decide), rfl, rfl, by decide⟩
/-- A one-byte payload with CAP = 3: both bounds at once. -/
theorem test_witness_EncodedFrameIsDelivered : Inv full ∧ full.rxEsc = false ∧ 1 ≤ [0x01#8].length
    ∧ [0x01#8].length + 2 ≤ full.params.cap := ⟨inv_full, by decide, by decide, by decide⟩
theorem test_witness_DecodeOfEncodeIsPayload : (Config.reference 3).valid = true ∧ 1 ≤ [0x01#8].length
    ∧ [0x01#8].length + 2 ≤ (Config.reference 3).cap := by decide
theorem test_witness_DanglingEscapeLosesAtMostOneFrame : Inv { full with rxEsc := true }
    ∧ ({ full with rxEsc := true } : State).rxEsc = true ∧ 1 ≤ [0x05#8].length
    ∧ [0x05#8].length + 2 ≤ ({ full with rxEsc := true } : State).params.cap := ⟨inv_esc, rfl, by decide, by decide⟩
theorem test_witness_DeliveryOnlyOnMatchingCrc : Inv full
    ∧ exec .decEnd full = .next (answer full (.frame [0x02#8])) ∧ (answer full (.frame [0x02#8])).output = .frame [0x02#8] :=
  ⟨inv_full, by rfl, rfl⟩
/-- CAP + 1 plain bytes, so that the last one is discarded. -/
theorem test_witness_PlainRunKeepsBytesSinceOverflow : Inv (dec 3 [] false) ∧ (dec 3 [] false).rxLen = 0
    ∧ (dec 3 [] false).rxEsc = false
    ∧ ∀ b ∈ [0x41#8, 0x42#8, 0x43#8, 0x44#8], (dec 3 [] false).params.isMarker b = false :=
  ⟨inv_of_check _ (by decide), rfl, rfl, by decide⟩
theorem test_witness_RepeatedEndMarkerAnswersAgain : Inv full ∧ full.rxEsc = false := ⟨inv_full, by decide⟩
theorem test_witness_EscapedByteIsAlwaysData : Inv nearFull ∧ nearFull.rxEsc = false
    ∧ nearFull.rxLen < nearFull.params.cap := ⟨inv_nearFull, by decide, by decide⟩
/-- Each of the seven labels occurs. -/
theorem test_witness_FeedLabelGivesEffect : Inv full ∧ Inv good ∧ Inv (dec 3 [0x00#8, 0x00#8] false)
    ∧ Inv (dec 3 [0x02#8, 0x20#8, 0x42#8] false)
    ∧ feedLabel good 0x41#8 = .append ∧ feedLabel full 0x41#8 = .overflow ∧ feedLabel full 0x01#8 = .resync
    ∧ feedLabel full 0x10#8 = .arm ∧ feedLabel (dec 3 [0x00#8, 0x00#8] false) 0x04#8 = .dropShort
    ∧ feedLabel (dec 3 [0x02#8, 0x20#8, 0x42#8] false) 0x04#8 = .dropCrc ∧ feedLabel full 0x04#8 = .deliver :=
  ⟨inv_full, inv_good, inv_of_check _ (by decide), inv_of_check _ (by decide), by decide⟩
theorem test_witness_EmptyPayloadIsNeverDelivered : Inv full ∧ full.rxEsc = false := ⟨inv_full, by decide⟩
theorem test_witness_LongPayloadIsNeverDelivered : Inv full ∧ full.params.cap < [0x41#8, 0x42#8].length + 2 :=
  ⟨inv_full, by decide⟩
/-- The last index inside and the first outside. -/
theorem test_witness_MemReadAfterMemWrite : full.rxBuf.wf = true ∧ 2 < full.params.cap ∧ full.params.cap ≤ 3 := by
  decide
theorem test_witness_ResetGivesTableValues : (dec 8 [0x03#8] true).params.valid = true := by decide
theorem test_witness_PowerOnMeetsInvariant : (Config.reference 3).valid = true := by decide
theorem test_witness_StepKeepsInvariant : Inv { full with issued := [.dec 0b100000100#9] }
    ∧ step { full with issued := [.dec 0b100000100#9] } = .next (answer full (.frame [0x02#8])) :=
  ⟨inv_of_check _ (by decide), by rfl⟩
/-- Both refusals occur in a state that meets the invariant. -/
theorem test_witness_NoOperationFaults : Inv full ∧ exec .encEnd full = .refused .encOutOfOrder
    ∧ exec (.decLit 0x41#8) full = .refused .classCondition := ⟨inv_full, by rfl, by rfl⟩
theorem test_witness_LegalOperationsComplete : Inv full ∧ mayIssue .encBegin full = true
    ∧ mayIssue .encEnd full = false := ⟨inv_full, by decide⟩
theorem test_witness_InvalidConfigurationIsRefused : (State.powerOn (Config.reference 2)).params.valid = false := by
  decide
theorem test_witness_ParametersAreFixed : exec .decStart full = .next { full with rxLen := 0 }
    ∧ step { full with issued := [.reset 1#1] } = .next { full with rxLen := 0 } := ⟨by rfl, by rfl⟩
/-- One operation or more for each clause, each one that the clause's row of R29 does not list. -/
theorem test_witness_OnlyListedOperationsWrite :
    exec (.encPut 0x41#8) (enc .body 0x0000#16) = .next { enc .body 0x58E5#16 with tx := [0x41#8] }
    ∧ exec .crcRd (acc 0xC457#16) = .next (answer (acc 0xC457#16) (.crc 0xC457#16))
    ∧ exec (.crcUpd 0x01#8) (acc 0x0000#16) = .next (acc 0x1021#16)
    ∧ (nextOf (exec .encEnd (enc .body 0x0401#16))).isSome = true
    ∧ exec .reset (enc .body 0x0401#16) = .next (enc .idle 0x0401#16)
    ∧ feedClass (.feed 0x04#8) full = some .finish ∧ (nextOf (exec (.feed 0x04#8) full)).isSome = true
    ∧ feedClass (.feed 0x10#8) full = some .escape ∧ (nextOf (exec (.feed 0x10#8) full)).isSome = true
    ∧ feedClass (.feed 0x01#8) full = some .start ∧ (nextOf (exec (.feed 0x01#8) full)).isSome = true
    ∧ feedClass (.feed 0x41#8) nearFull = some .data ∧ (nextOf (exec (.feed 0x41#8) nearFull)).isSome = true := by
  refine ⟨by rfl, by rfl, by rfl, by decide, by rfl, ?_⟩
  decide
/-- An append that stores, at the last index. -/
theorem test_witness_MemoryUnchangedOutsideStoredByte : nearFull.rxBuf.wf = true
    ∧ storesAt (.feed 0x41#8) nearFull = some 3
    ∧ (nextOf (exec (.feed 0x41#8) nearFull)).isSome = true := by decide
theorem test_witness_TransmitStreamOnlyGrows : (nextOf (exec .encBegin (enc .idle 0x0000#16))).isSome = true
    ∧ (nextOf (exec (.encPut 0x10#8) (enc .body 0x0000#16))).isSome = true
    ∧ (nextOf (exec .encEnd (enc .body 0x0401#16))).isSome = true
    ∧ (nextOf (exec .crcRd (enc .body 0x0401#16))).isSome = true := by decide
theorem test_witness_UnitsCommute : Instr.crcClr.unit = some .crc ∧ (Instr.feed 0x41#8).unit = some .dec
    ∧ exec .crcClr full = .next full
    ∧ exec (.feed 0x41#8) full = .next { full with rxLen := 0 } := ⟨rfl, rfl, by rfl, by rfl⟩
/-- Different bytes at an index not held, and a different enc_crc outside a frame. -/
theorem test_witness_UnspecifiedValuesNeverMatter : Inv (dec 3 [] false)
    ∧ Inv { dec 3 [] false with rxBuf := [(0, 0xAA#8)], encCrc := 0x1234#16 }
    ∧ SameSpecified (dec 3 [] false) { dec 3 [] false with rxBuf := [(0, 0xAA#8)], encCrc := 0x1234#16 } :=
  ⟨inv_of_check _ (by decide), inv_of_check _ (by decide),
    ⟨rfl, rfl, fun h => (by cases h), fun a h => absurd h (Nat.not_lt_zero a), rfl, rfl, rfl, rfl, rfl, rfl⟩⟩
theorem test_witness_StepRunsDecodedOperation :
    ({ full with issued := [.dec 0b100000100#9] } : State).issued = .dec 0b100000100#9 :: []
    ∧ decode full.params (.dec 0b100000100#9) = .ok (.feed 0x04#8) := ⟨rfl, by decide⟩
theorem test_witness_StrobesOfOneUnitExclude : full.params.valid = true
    ∧ decode full.params (.crc 0b1100000000#10) = .error .twoStrobes
    ∧ decode full.params (.enc 0b00000000000#11) = .error .noStrobe ∧ full.issued = [] := by decide
theorem test_witness_DecodeOfEncodedWord : (Config.reference 3).valid = true
    ∧ (Instr.decData 0x41#8).wellFormed (Config.reference 3) = true := by decide
theorem test_witness_EncodedWordOfDecodedPair : (Config.reference 3).valid = true
    ∧ decode (Config.reference 3) (.dec 0b100000100#9) = .ok (.feed 0x04#8)
    ∧ decode (Config.reference 3) (.reset 0b1#1) = .ok .reset
    ∧ decode (Config.reference 3) (.crc 0b1011111111#10) = .ok .crcClr
    ∧ decode (Config.reference 3) (.crc 0b0111111111#10) = .ok (.crcUpd 0xFF#8)
    ∧ decode (Config.reference 3) (.enc 0b10011111111#11) = .ok .encBegin
    ∧ decode (Config.reference 3) (.enc 0b01011111111#11) = .ok (.encPut 0xFF#8) := by decide

/-- R72 at the edges of each clause: don't-care bits set, all strobes, none. -/
theorem test_strobes_crc : decode (Config.reference 8) (.crc 0b1111111111#10) = .error .twoStrobes
    ∧ decode (Config.reference 8) (.crc 0b1011111111#10) = .ok .crcClr
    ∧ decode (Config.reference 8) (.crc 0b0011111111#10) = .ok .crcRd := by decide
theorem test_strobes_enc : decode (Config.reference 8) (.enc 0b11111111111#11) = .error .twoStrobes
    ∧ decode (Config.reference 8) (.enc 0b10100000000#11) = .error .twoStrobes
    ∧ decode (Config.reference 8) (.enc 0b11000000000#11) = .error .twoStrobes
    ∧ decode (Config.reference 8) (.enc 0b00011111111#11) = .error .noStrobe := by decide

end Sys2Proof.Tests
end

/-! ## Proofs: the CRC unit (40_crc16.md R92, R95 to R97) -/

namespace Sys2Proof.Machine

/-! ### What each CRC operation answers in a valid instance -/

theorem exec_crcClr_of_valid (s : State) (hv : s.params.valid = true) :
    exec .crcClr s = .next (answer { s with crcAcc := crcInit s.params.crc } .none) :=
  configured_of_valid s _ hv

theorem exec_crcUpd_of_valid (b : Byte) (s : State) (hv : s.params.valid = true) :
    exec (.crcUpd b) s = .next (answer { s with crcAcc := crcUpd s.params.crc s.crcAcc b } .none) :=
  configured_of_valid s _ hv

theorem exec_crcRd_of_valid (s : State) (hv : s.params.valid = true) :
    exec .crcRd s = .next (answer s (.crc s.crcPort)) :=
  configured_of_valid s _ hv

/-! ### Frame -/

/-- The shape of every CRC operation's next state: ENC, DEC and the host's own fields stand outside it. The
accumulator may be the old one, as in CRC.RD. -/
theorem answer_setCrcAcc_frame (s : State) (a : U16) (o : Output) :
    SameEnc s (answer { s with crcAcc := a } o) ∧ SameDec s (answer { s with crcAcc := a } o)
      ∧ SameHost s (answer { s with crcAcc := a } o) :=
  ⟨⟨rfl, rfl, rfl⟩, ⟨rfl, rfl, fun _ => rfl⟩, ⟨rfl, rfl⟩⟩

/-! ### The fold -/

@[simp] theorem crcFold_nil (alg : CrcAlgorithm) (a : U16) : crcFold alg a [] = a := rfl

theorem crcFold_concat (alg : CrcAlgorithm) (a : U16) (bytes : List Byte) (b : Byte) :
    crcFold alg a (bytes ++ [b]) = crcUpd alg (crcFold alg a bytes) b :=
  List.foldl_concat ..

theorem crc16_eq_crcFin_crcFold (alg : CrcAlgorithm) (bytes : List Byte) :
    crc16 alg bytes = crcFin alg (crcFold alg (crcInit alg) bytes) := rfl

/-! ### The obligations -/

/-- Settles O1: after one CRC.CLR the accumulator and the result are what a second one writes, so the state is a
fixed point of CRC.CLR; the instance stays valid, so CRC.RD completes there. -/
theorem crcClrLoadsInitialValue : Obligations.CrcClrLoadsInitialValue := by
  intro s hv
  obtain ⟨henc, hdec, hhost⟩ := answer_setCrcAcc_frame s (crcInit s.params.crc) .none
  exact ⟨_, exec_crcClr_of_valid s hv, rfl, rfl, henc, hdec, hhost, exec_crcClr_of_valid _ hv,
    _, exec_crcRd_of_valid _ hv, rfl⟩

/-- Settles O2: the equation of CRC.UPD with the frame of an accumulator write; no case split on the byte. -/
theorem crcUpdAdvancesAccumulator : Obligations.CrcUpdAdvancesAccumulator := by
  intro b s hv
  exact ⟨_, exec_crcUpd_of_valid b s hv, rfl, rfl, answer_setCrcAcc_frame s _ .none⟩

/-- Settles O3: the result is the port's value, and the frame is that of writing back the accumulator's own value. -/
theorem crcRdReturnsFinalValue : Obligations.CrcRdReturnsFinalValue := by
  intro s hv
  exact ⟨_, exec_crcRd_of_valid s hv, rfl, rfl, rfl, answer_setCrcAcc_frame s s.crcAcc _⟩

/-- Settles O5: the fold is `crcFold` from CRC_INIT. -/
theorem crc16IsFoldOfBytes : Obligations.Crc16IsFoldOfBytes := by
  intro alg
  refine ⟨⟨crcFold alg (crcInit alg), crcFold_nil .., crcFold_concat alg _, crc16_eq_crcFin_crcFold alg⟩, ?_⟩
  rw [crc16_eq_crcFin_crcFold, crcFold_nil]

end Sys2Proof.Machine

/-! ## Proofs: the encoder (41_encoder.md R114 to R117) -/

namespace Sys2Proof.Machine

/-! ### The encoder-state gate -/

theorem inEncState_of_eq (e : EncState) (s t : State) (hv : s.params.valid = true) (he : s.encState = e) :
    inEncState e s t = .next (answer t .none) := by
  rw [inEncState, configured_of_valid _ _ hv, if_pos he]

theorem inEncState_of_ne (e : EncState) (s t : State) (hv : s.params.valid = true) (he : s.encState ≠ e) :
    inEncState e s t = .refused .encOutOfOrder := by
  rw [inEncState, configured_of_valid _ _ hv, if_neg he]

/-! ### What each encoder call answers in its own encoder state, and RESET in every state -/

theorem exec_encBegin_of_idle (s : State) (hv : s.params.valid = true) (he : s.encState = .idle) :
    exec .encBegin s = .next (answer
      { emit s [s.params.startMarker] with encCrc := crcInit s.params.crc, encState := .body } .none) :=
  inEncState_of_eq .idle s _ hv he

theorem exec_encPut_of_body (b : Byte) (s : State) (hv : s.params.valid = true) (he : s.encState = .body) :
    exec (.encPut b) s = .next (answer
      { emit s (stuff s.params b) with encCrc := crcUpd s.params.crc s.encCrc b } .none) :=
  inEncState_of_eq .body s _ hv he

theorem exec_encEnd_of_body (s : State) (hv : s.params.valid = true) (he : s.encState = .body) :
    exec .encEnd s = .next (answer
      { emit s (closingBytes s.params (crcFin s.params.crc s.encCrc)) with encState := .idle } .none) :=
  inEncState_of_eq .body s _ hv he

theorem exec_reset_of_valid (s : State) (hv : s.params.valid = true) :
    exec .reset s = .next (answer
      (clearEsc { s with crcAcc := crcInit s.params.crc, encState := .idle, rxLen := 0 }) .none) :=
  configured_of_valid s _ hv

/-! ### Frame -/

/-- The shape of every encoder call's next state: CRC, DEC and the host's own fields stand outside it. A field of
the encoder may keep its old value, as `encState` in ENC.PUT and `encCrc` in ENC.END. -/
theorem answer_emit_setEnc_frame (s : State) (bytes : List Byte) (c : U16) (e : EncState) (o : Output) :
    SameCrc s (answer { emit s bytes with encCrc := c, encState := e } o)
      ∧ SameDec s (answer { emit s bytes with encCrc := c, encState := e } o)
      ∧ SameHost s (answer { emit s bytes with encCrc := c, encState := e } o) :=
  ⟨rfl, ⟨rfl, rfl, fun _ => rfl⟩, ⟨rfl, rfl⟩⟩

/-! ### Stuffing -/

/-- Stuffing (R62) with the marker test of R15 spelt as the three equations. -/
theorem stuff_eq_ite (p : Params) (b : Byte) :
    stuff p b = if b = p.startMarker ∨ b = p.endMarker ∨ b = p.escMarker then [p.escMarker, b] else [b] :=
  if_congr (isMarker_iff p b) rfl rfl

/-- Stuffing sends the byte itself last, whatever comes before it. -/
theorem stuff_eq_escape_append (p : Params) (b : Byte) :
    stuff p b = (if b = p.startMarker ∨ b = p.endMarker ∨ b = p.escMarker then [p.escMarker] else []) ++ [b] := by
  rw [stuff_eq_ite]
  split
  · rfl
  · rfl

/-! ### The obligations -/

/-- Settles O7: the idle gate lets ENC.BEGIN through to its effect, and the frame is that of an encoder write. -/
theorem encBeginOpensFrame : Obligations.EncBeginOpensFrame := by
  intro s hv he
  exact ⟨_, exec_encBegin_of_idle s hv he, rfl, rfl, rfl, rfl, answer_emit_setEnc_frame s _ _ .body .none⟩

/-- Settles O8: ENC.PUT emits `stuff b`, whose marker test R115 writes out; the frame stays open because `encState`
keeps its value. -/
theorem encPutEmitsStuffedByte : Obligations.EncPutEmitsStuffedByte := by
  intro b s hv he
  rw [← stuff_eq_ite]
  exact ⟨_, exec_encPut_of_body b s hv he, rfl, rfl, he, rfl, answer_emit_setEnc_frame s _ _ s.encState .none⟩

/-- Settles O9: each CRC byte stands last in its own stuffing, so the closing bytes are, up to bracketing, the list
that R116 writes out. -/
theorem encEndClosesFrame : Obligations.EncEndClosesFrame := by
  intro s hv he p c lo hi
  have htx : s.tx ++ closingBytes p c = s.tx
      ++ (if lo = p.startMarker ∨ lo = p.endMarker ∨ lo = p.escMarker then [p.escMarker] else []) ++ [lo]
      ++ (if hi = p.startMarker ∨ hi = p.endMarker ∨ hi = p.escMarker then [p.escMarker] else []) ++ [hi]
      ++ [p.endMarker] := by
    simp only [closingBytes, stuff_eq_escape_append, List.append_assoc]
    rfl
  exact ⟨_, exec_encEnd_of_body s hv he, htx, rfl, rfl, rfl, answer_emit_setEnc_frame s _ s.encCrc .idle .none⟩

/-- Settles O10: in the wrong encoder state the gate refuses; RESET stands behind no encoder-state gate. -/
theorem encCallsOutOfOrderRefused : Obligations.EncCallsOutOfOrderRefused := by
  intro s hv
  refine ⟨fun he => ?_, fun he b => ?_, fun he => ?_, _, exec_reset_of_valid s hv⟩
  · exact inEncState_of_ne .idle s _ hv (by simp [he])
  · exact inEncState_of_ne .body s _ hv (by simp [he])
  · exact inEncState_of_ne .body s _ hv (by simp [he])

end Sys2Proof.Machine

/-! ## Proofs: the decoder's byte classes (42_decoder.md R130 to R136) -/

namespace Sys2Proof.Machine

/-! ### What each class row answers where its condition holds (R65) -/

theorem exec_decLit_of_escaped (b : Byte) (s : State) (hi : Inv s) (he : s.rxEsc = true) :
    exec (.decLit b) s = .next (afterAppend s b) :=
  (inClass_of_class .lit b s _ hi.valid (by rw [he, classify_literal])).trans (finish_append_of_le s b hi.lenLe)

theorem exec_decStart_of_unescaped (s : State) (hv : s.params.valid = true) (he : s.rxEsc = false) :
    exec .decStart s = .next (answer { s with rxLen := 0 } .none) :=
  inClass_of_class .start _ s _ hv (by rw [he, classify_startMarker])

theorem exec_decEnd_of_unescaped (s : State) (hi : Inv s) (he : s.rxEsc = false) :
    exec .decEnd s = .next (answer s
      (if 2 < s.rxLen ∧ crc16 s.params.crc ((List.range (s.rxLen - 2)).map s.rxBuf.read)
            = crcOfBytes (s.rxBuf.read (s.rxLen - 1)) (s.rxBuf.read (s.rxLen - 2))
        then .frame ((List.range (s.rxLen - 2)).map s.rxBuf.read) else .none)) := by
  have hrow : exec .decEnd s = endEffect s :=
    inClass_of_class .finish _ s _ hi.valid (by rw [he, classify_endMarker _ hi.valid])
  rw [hrow, endEffect, endCheck_of_le s hi.lenLe]

theorem exec_decEsc_of_unescaped (s : State) (hv : s.params.valid = true) (he : s.rxEsc = false) :
    exec .decEsc s = .next (answer (setEsc s) .none) :=
  inClass_of_class .escape _ s _ hv (by rw [he, classify_escMarker _ hv])

theorem exec_decData_of_plain (b : Byte) (s : State) (hi : Inv s) (he : s.rxEsc = false)
    (hb : s.params.isMarker b = false) : exec (.decData b) s = .next (afterAppend s b) :=
  (inClass_of_class .data b s _ hi.valid (by rw [he, classify_plain _ _ hb])).trans
    (finish_append_of_le s b hi.lenLe)

/-! ### The dispatch of FEED (R130) -/

/-- The row of a byte's class (R65) as a chain of tests, the flag before the value. -/
theorem classInstr_classify (p : Params) (esc : Bool) (b : Byte) :
    classInstr (classify p esc b) b
      = if esc = true then .decLit b
        else if b = p.startMarker then .decStart
        else if b = p.endMarker then .decEnd
        else if b = p.escMarker then .decEsc
        else .decData b := by
  unfold classify
  split_ifs <;> rfl

/-- FEED runs the row of its byte's class, in every state: the class of a marker row determines the byte, so the
row's own condition holds, and an invalid configuration refuses both alike. -/
theorem exec_feed_eq_exec_classInstr (b : Byte) (s : State) :
    exec (.feed b) s = exec (classInstr (classify s.params s.rxEsc b) b) s := by
  have table := classify_cases s.params s.rxEsc b
  rcases hc : classify s.params s.rxEsc b <;> rw [hc] at table
  case lit => simp only [classInstr, exec, execFeed, execDecLit, inClass, hc, if_true]
  case start =>
    obtain ⟨-, rfl⟩ := table
    simp only [classInstr, exec, execFeed, execDecStart, inClass, hc, if_true]
  case finish =>
    obtain ⟨-, rfl⟩ := table
    simp only [classInstr, exec, execFeed, execDecEnd, inClass, hc, if_true]
  case escape =>
    obtain ⟨-, rfl⟩ := table
    simp only [classInstr, exec, execFeed, execDecEsc, inClass, hc, if_true]
  case data => simp only [classInstr, exec, execFeed, execDecData, inClass, hc, if_true]

/-- The dispatch of FEED, written out over the operations. -/
theorem exec_feed_eq_ite (b : Byte) (s : State) :
    exec (.feed b) s
      = if s.rxEsc = true then exec (.decLit b) s
        else if b = s.params.startMarker then exec .decStart s
        else if b = s.params.endMarker then exec .decEnd s
        else if b = s.params.escMarker then exec .decEsc s
        else exec (.decData b) s := by
  simp only [exec_feed_eq_exec_classInstr, classInstr_classify, apply_ite (exec · s)]

/-! ### The append (R131) -/

/-- The state after an appending class is the append of R131, in a buffer in canonical form. -/
theorem afterAppend_appendEffect (s : State) (b : Byte) (h : s.rxBuf.wf = true) :
    AppendEffect b s (afterAppend s b) := by
  refine ⟨fun hl => ?_, fun hl => ?_⟩
  · rw [afterAppend, if_pos hl]
    exact ⟨rfl, fun _ => rfl⟩
  · rw [afterAppend, if_neg hl]
    exact ⟨rfl, Memory.read_write_same _ _ _ h, fun a ha => Memory.read_write_other _ _ a b ha⟩

@[simp] theorem afterAppend_output (s : State) (b : Byte) : (afterAppend s b).output = .none := by
  obtain ⟨-, -, -, -, -, -, -, hout⟩ := afterAppend_frame s b
  exact hout

/-- What R132 and R136 both say of an appending class: the append, the flag clear, nothing delivered, and CRC, ENC
and the host's own fields outside it. -/
theorem afterAppend_effect_frame (s : State) (b : Byte) (h : s.rxBuf.wf = true) :
    AppendEffect b s (afterAppend s b) ∧ (afterAppend s b).rxEsc = false ∧ (afterAppend s b).output = .none
      ∧ SameCrc s (afterAppend s b) ∧ SameEnc s (afterAppend s b) ∧ SameHost s (afterAppend s b) := by
  obtain ⟨hacc, hstate, hcrc, htx, hparams, hissued, hesc, hout⟩ := afterAppend_frame s b
  exact ⟨afterAppend_appendEffect s b h, hesc, hout, hacc, ⟨hstate, hcrc, htx⟩, hparams, hissued⟩

/-! ### The obligations -/

/-- Settles O14: FEED is the row of its byte's class, whose condition the class is; in a state that meets the
invariant each row completes, and all but DEC.END answer none. -/
theorem feedRunsTheClassOfItsByte : Obligations.FeedRunsTheClassOfItsByte := by
  intro b s hi
  refine ⟨exec_feed_eq_ite b s, ?_⟩
  have table := classify_cases s.params s.rxEsc b
  rw [exec_feed_eq_exec_classInstr]
  rcases hc : classify s.params s.rxEsc b <;> rw [hc] at table
  case lit => exact ⟨_, exec_decLit_of_escaped b s hi table, fun ho => absurd (afterAppend_output s b) ho⟩
  case start => exact ⟨_, exec_decStart_of_unescaped s hi.valid table.1, fun ho => absurd rfl ho⟩
  case finish =>
    exact ⟨_, exec_decEnd_of_unescaped s hi table.1, fun _ => table⟩
  case escape => exact ⟨_, exec_decEsc_of_unescaped s hi.valid table.1, fun ho => absurd rfl ho⟩
  case data =>
    exact ⟨_, exec_decData_of_plain b s hi table.1 table.2, fun ho => absurd (afterAppend_output s b) ho⟩

/-- Settles O15: the set flag is DEC.LIT's whole condition, so no test of the byte remains. -/
theorem decLitAppendsAnyByte : Obligations.DecLitAppendsAnyByte := by
  intro b s hi he
  exact ⟨_, exec_decLit_of_escaped b s hi he, afterAppend_effect_frame s b hi.canonical⟩

/-- Settles O16: only the length and the result are written, so the state after one DEC.START is a fixed point of
the next. -/
theorem decStartEmptiesBuffer : Obligations.DecStartEmptiesBuffer := by
  intro s hv he
  exact ⟨_, exec_decStart_of_unescaped s hv he, rfl, he, rfl, fun _ => rfl, rfl, ⟨rfl, rfl, rfl⟩, ⟨rfl, rfl⟩,
    exec_decStart_of_unescaped _ hv he⟩

/-- Settles O17: with rx_len at most CAP every index that the check reads is below CAP, so the check answers; the
next state is the old one with that answer. -/
theorem decEndDeliversCheckedPayload : Obligations.DecEndDeliversCheckedPayload := by
  intro s hi he
  exact ⟨_, exec_decEnd_of_unescaped s hi he, rfl, rfl, ⟨rfl, rfl, rfl⟩, ⟨rfl, rfl, fun _ => rfl⟩, rfl, rfl⟩

/-- Settles O18: DEC.ESC tests no length, so a full buffer is no case of its own. -/
theorem decEscSetsLiteralFlag : Obligations.DecEscSetsLiteralFlag := by
  intro s hv he
  exact ⟨_, exec_decEsc_of_unescaped s hv he, rfl, rfl, rfl, fun _ => rfl, rfl, ⟨rfl, rfl, rfl⟩, rfl, rfl⟩

/-- Settles O19: DEC.DATA's condition is the clear flag and a byte that is no marker; its effect is that of
DEC.LIT. -/
theorem decDataAppendsPlainByte : Obligations.DecDataAppendsPlainByte := by
  intro b s hi he hb
  exact ⟨_, exec_decData_of_plain b s hi he hb, afterAppend_effect_frame s b hi.canonical⟩

end Sys2Proof.Machine

/-! ## Proofs: the labels of a FEED step (60_exceptions.md R161, R168) -/

namespace Sys2Proof.Machine

/-! ### The label of a byte, by its class -/

theorem feedLabel_of_appending (b : Byte) (s : State)
    (hc : classify s.params s.rxEsc b = .lit ∨ classify s.params s.rxEsc b = .data) :
    feedLabel s b = if s.rxLen = s.params.cap then .overflow else .append := by
  rcases hc with hc | hc
  · rw [feedLabel, hc]
  · rw [feedLabel, hc]

theorem feedLabel_of_start (b : Byte) (s : State) (hc : classify s.params s.rxEsc b = .start) :
    feedLabel s b = .resync := by
  rw [feedLabel, hc]

theorem feedLabel_of_escape (b : Byte) (s : State) (hc : classify s.params s.rxEsc b = .escape) :
    feedLabel s b = .arm := by
  rw [feedLabel, hc]

theorem feedLabel_of_finish (b : Byte) (s : State) (hc : classify s.params s.rxEsc b = .finish) :
    feedLabel s b = if s.rxLen ≤ 2 then .dropShort
      else if crc16 s.params.crc (s.held.take (s.rxLen - 2))
          = crcOfBytes (s.rxBuf.read (s.rxLen - 1)) (s.rxBuf.read (s.rxLen - 2)) then .deliver
      else .dropCrc := by
  rw [feedLabel, hc]

/-- R168 (4): at an end marker the length is tested before the CRC, so a short buffer has one label and a longer
one either of two. -/
theorem feedLabel_of_finish_cases (b : Byte) (s : State) (hc : classify s.params s.rxEsc b = .finish) :
    (feedLabel s b = .dropShort ∧ s.rxLen ≤ 2) ∨ (feedLabel s b = .dropCrc ∧ 2 < s.rxLen)
      ∨ (feedLabel s b = .deliver ∧ 2 < s.rxLen) := by
  rw [feedLabel_of_finish b s hc]
  split_ifs with hshort hcrc
  · exact .inl ⟨rfl, hshort⟩
  · exact .inr (.inr ⟨rfl, Nat.lt_of_not_le hshort⟩)
  · exact .inr (.inl ⟨rfl, Nat.lt_of_not_le hshort⟩)

/-! ### What FEED answers, by the class of its byte -/

theorem exec_feed_of_appending (b : Byte) (s : State) (hi : Inv s)
    (hc : classify s.params s.rxEsc b = .lit ∨ classify s.params s.rxEsc b = .data) :
    exec (.feed b) s = .next (afterAppend s b) := by
  have table := classify_cases s.params s.rxEsc b
  rw [exec_feed_eq_exec_classInstr]
  rcases hc with hc | hc
  · rw [hc] at table ⊢
    exact exec_decLit_of_escaped b s hi table
  · rw [hc] at table ⊢
    exact exec_decData_of_plain b s hi table.1 table.2

theorem exec_feed_of_start (b : Byte) (s : State) (hv : s.params.valid = true)
    (hc : classify s.params s.rxEsc b = .start) :
    exec (.feed b) s = .next (answer { s with rxLen := 0 } .none) := by
  have table := classify_cases s.params s.rxEsc b
  rw [hc] at table
  rw [exec_feed_eq_exec_classInstr, hc]
  exact exec_decStart_of_unescaped s hv table.1

theorem exec_feed_of_escape (b : Byte) (s : State) (hv : s.params.valid = true)
    (hc : classify s.params s.rxEsc b = .escape) :
    exec (.feed b) s = .next (answer (setEsc s) .none) := by
  have table := classify_cases s.params s.rxEsc b
  rw [hc] at table
  rw [exec_feed_eq_exec_classInstr, hc]
  exact exec_decEsc_of_unescaped s hv table.1

/-- At an end marker FEED writes nothing but the result, and the label DELIVER is the condition of R134. -/
theorem exec_feed_of_finish (b : Byte) (s : State) (hi : Inv s) (hc : classify s.params s.rxEsc b = .finish) :
    exec (.feed b) s = .next (answer s
      (if feedLabel s b = .deliver then .frame (s.held.take (s.rxLen - 2)) else .none)) := by
  have table := classify_cases s.params s.rxEsc b
  rw [hc] at table
  rw [exec_feed_eq_exec_classInstr, hc, feedLabel_of_finish b s hc]
  refine (exec_decEnd_of_unescaped s hi table.1).trans ?_
  rw [← State.held_take s _ (Nat.sub_le _ _)]
  by_cases hshort : s.rxLen ≤ 2
  · simp [hshort, Nat.not_lt.2 hshort]
  · simp [hshort, Nat.lt_of_not_le hshort]

/-! ### The accumulated bytes after an append -/

theorem afterAppend_held_of_full (s : State) (b : Byte) (h : s.rxBuf.wf = true) (hl : s.rxLen = s.params.cap) :
    (afterAppend s b).held = [] := by
  rw [afterAppend_held s b h, listAppend, State.held_length, if_pos hl]

theorem afterAppend_held_of_room (s : State) (b : Byte) (h : s.rxBuf.wf = true) (hl : s.rxLen ≠ s.params.cap) :
    (afterAppend s b).held = s.held ++ [b] := by
  rw [afterAppend_held s b h, listAppend, State.held_length, if_neg hl]

/-! ### The obligation -/

/-- Settles O31: the class of the byte gives the next state; for an appending class the room left, and at an end
marker the length and the CRC, tell which of its labels the step has. -/
theorem feedLabelGivesEffect : Obligations.FeedLabelGivesEffect := by
  intro b s hi
  rcases hc : classify s.params s.rxEsc b
  case lit | data =>
    have happ : classify s.params s.rxEsc b = .lit ∨ classify s.params s.rxEsc b = .data := by simp [hc]
    obtain ⟨-, hesc, hout, -⟩ := afterAppend_effect_frame s b hi.canonical
    refine ⟨_, exec_feed_of_appending b s hi happ, ?_⟩
    rw [feedLabel_of_appending b s happ]
    by_cases hfull : s.rxLen = s.params.cap
    · rw [if_pos hfull]
      exact ⟨hfull, afterAppend_held_of_full s b hi.canonical hfull, hesc, hout⟩
    · rw [if_neg hfull]
      exact ⟨Nat.lt_of_le_of_ne hi.lenLe hfull, afterAppend_held_of_room s b hi.canonical hfull, hesc, hout⟩
  case start =>
    rw [feedLabel_of_start b s hc]
    exact ⟨_, exec_feed_of_start b s hi.valid hc, rfl, rfl, rfl⟩
  case escape =>
    rw [feedLabel_of_escape b s hc]
    exact ⟨_, exec_feed_of_escape b s hi.valid hc, rfl, rfl, rfl⟩
  case finish =>
    refine ⟨_, exec_feed_of_finish b s hi hc, ?_⟩
    rcases feedLabel_of_finish_cases b s hc with ⟨hl, hlen⟩ | ⟨hl, hlen⟩ | ⟨hl, hlen⟩
    · rw [hl]; exact ⟨hlen, rfl, rfl, rfl⟩
    · rw [hl]; exact ⟨hlen, rfl, rfl, rfl⟩
    · rw [hl]; exact ⟨hlen, rfl, rfl, rfl⟩

end Sys2Proof.Machine

/-! ## Proofs: what every operation answers, in every state

One equation for `exec`, in the order of its tests: the configuration (D2, D5), whether the operation may be issued
(R117, R65), whether it would access rx_buf beyond CAP (R41), and the next state. -/

namespace Sys2Proof.Machine

/-- The state after the step of a byte class (R132 to R136). -/
def afterClass (c : ByteClass) (b : Byte) (s : State) : State :=
  match c with
  | .lit | .data => afterAppend s b
  | .start => answer { s with rxLen := 0 } .none
  | .finish => answer s (feedOutput (listCheck s.params s.held))
  | .escape => answer (setEsc s) .none

/-- The state after an operation that completes. -/
def afterExec (i : Instr) (s : State) : State :=
  match i with
  | .decLit b => afterClass .lit b s
  | .decStart => afterClass .start s.params.startMarker s
  | .decEnd => afterClass .finish s.params.endMarker s
  | .decEsc => afterClass .escape s.params.escMarker s
  | .decData b => afterClass .data b s
  | .crcClr => answer { s with crcAcc := crcInit s.params.crc } .none
  | .crcUpd b => answer { s with crcAcc := crcUpd s.params.crc s.crcAcc b } .none
  | .crcRd => answer s (.crc s.crcPort)
  | .encBegin =>
    answer { emit s [s.params.startMarker] with encCrc := crcInit s.params.crc, encState := .body } .none
  | .encPut b => answer { emit s (stuff s.params b) with encCrc := crcUpd s.params.crc s.encCrc b } .none
  | .encEnd =>
    answer { emit s (closingBytes s.params (crcFin s.params.crc s.encCrc)) with encState := .idle } .none
  | .feed b => afterClass (classify s.params s.rxEsc b) b s
  | .reset => answer (clearEsc { s with crcAcc := crcInit s.params.crc, encState := .idle, rxLen := 0 }) .none

/-- Whether the operation stores to rx_buf or reads it (R149): an append, or the check at an end marker. -/
def accessesBuffer (i : Instr) (s : State) : Bool := appends i s || feedClass i s == some .finish

/-- The reason an operation that may not be issued is refused for (R117; log entry 10). -/
def orderRefusal (i : Instr) : Refusal := if i.unit = some .enc then .encOutOfOrder else .classCondition

/-! ### The two effects that access rx_buf -/

theorem finish_append_eq (s : State) (b : Byte) :
    finish ((append s b).map clearEsc)
      = if s.params.cap < s.rxLen then .fault .rxIndexOutOfRange else .next (afterAppend s b) := by
  split
  · next h => rw [append_above s b h]; rfl
  · next h => exact finish_append_of_le s b (Nat.le_of_not_lt h)

/-- Above CAP the check reads its last byte out of range, so it faults whatever the bytes before it give. -/
theorem endCheck_above (s : State) (h2 : 2 < s.rxLen) (h : s.params.cap < s.rxLen) :
    endCheck s = .error .rxIndexOutOfRange := by
  have hlast : memRead s (s.rxLen - 1) = .error .rxIndexOutOfRange := if_neg (by omega)
  rw [endCheck, if_pos h2, hlast]
  cases memReads s 0 (s.rxLen - 2) with
  | error f => cases f; rfl
  | ok payload => rfl

theorem endEffect_eq (s : State) (hv : s.params.valid = true) :
    endEffect s = if s.params.cap < s.rxLen then .fault .rxIndexOutOfRange
      else .next (answer s (feedOutput (listCheck s.params s.held))) := by
  obtain ⟨-, -, -, hcap⟩ := (params_valid_iff _).1 hv
  split
  · next h => rw [endEffect, endCheck_above s (by omega) h]
  · next h => exact endEffect_of_le s (Nat.le_of_not_lt h)

/-! ### The equation of `exec` -/

theorem configured_congr (s : State) (k k' : StepOutcome) (h : s.params.valid = true → k = k') :
    configured s k = configured s k' := by
  unfold configured
  split
  · next hv => exact h hv
  · rfl

theorem afterExec_feed (b : Byte) (s : State) :
    afterExec (.feed b) s = afterExec (classInstr (classify s.params s.rxEsc b) b) s := by
  rw [afterExec]
  cases classify s.params s.rxEsc b <;> rfl

/-- What `exec` answers once the configuration is valid. -/
def answerOf (i : Instr) (s : State) : StepOutcome :=
  if mayIssue i s = false then .refused (orderRefusal i)
  else if accessesBuffer i s = true ∧ s.params.cap < s.rxLen then .fault .rxIndexOutOfRange
  else .next (afterExec i s)

theorem inClass_eq_configured (i : Instr) (c : ByteClass) (b : Byte) (s : State) (k : StepOutcome)
    (hm : mayIssue i s = (classify s.params s.rxEsc b == c)) (hr : orderRefusal i = .classCondition)
    (hk : s.params.valid = true → k = if accessesBuffer i s = true ∧ s.params.cap < s.rxLen
      then .fault .rxIndexOutOfRange else .next (afterExec i s)) :
    inClass c b s k = configured s (answerOf i s) := by
  refine configured_congr s _ _ fun hv => ?_
  rw [answerOf, hm, hr, hk hv]
  by_cases hc : classify s.params s.rxEsc b = c
  · simp [hc]
  · simp [hc]

theorem inEncState_eq_configured (i : Instr) (e : EncState) (s t : State)
    (hm : mayIssue i s = (s.encState == e)) (hr : orderRefusal i = .encOutOfOrder)
    (ha : accessesBuffer i s = false) (ht : answer t .none = afterExec i s) :
    inEncState e s t = configured s (answerOf i s) := by
  refine configured_congr s _ _ fun _ => ?_
  rw [answerOf, hm, hr, ha, ht]
  by_cases he : s.encState = e
  · simp [he]
  · simp [he]

/-- The class rows of the table, each behind its condition. -/
theorem exec_classInstr_eq (c : ByteClass) (b : Byte) (s : State) :
    exec (classInstr c b) s = configured s (answerOf (classInstr c b) s) := by
  cases c with
  | lit =>
    exact inClass_eq_configured (.decLit b) .lit b s _ rfl rfl fun _ =>
      (finish_append_eq s b).trans (by simp [accessesBuffer, appends, feedClass, afterExec, afterClass])
  | data =>
    exact inClass_eq_configured (.decData b) .data b s _ rfl rfl fun _ =>
      (finish_append_eq s b).trans (by simp [accessesBuffer, appends, feedClass, afterExec, afterClass])
  | finish =>
    exact inClass_eq_configured .decEnd .finish _ s _ rfl rfl fun hv =>
      (endEffect_eq s hv).trans (by simp [accessesBuffer, appends, feedClass, afterExec, afterClass])
  | start => exact inClass_eq_configured .decStart .start _ s _ rfl rfl fun _ => rfl
  | escape => exact inClass_eq_configured .decEsc .escape _ s _ rfl rfl fun _ => rfl

/-- The row of a byte's class may be issued: a class with a marker determines the byte. -/
theorem mayIssue_classInstr_classify (b : Byte) (s : State) :
    mayIssue (classInstr (classify s.params s.rxEsc b) b) s = true := by
  have table := classify_cases s.params s.rxEsc b
  rcases hc : classify s.params s.rxEsc b <;> rw [hc] at table
  case lit | data => simp only [classInstr, mayIssue, hc, beq_self_eq_true]
  case start | finish | escape =>
    obtain ⟨-, rfl⟩ := table
    simp only [classInstr, mayIssue, hc, beq_self_eq_true]

@[simp] theorem feedClass_classInstr (c : ByteClass) (b : Byte) (s : State) :
    feedClass (classInstr c b) s = some c := by
  cases c <;> rfl

@[simp] theorem orderRefusal_classInstr (c : ByteClass) (b : Byte) :
    orderRefusal (classInstr c b) = .classCondition := by
  cases c <;> rfl

/-- FEED answers as the row of its byte's class. -/
theorem answerOf_feed (b : Byte) (s : State) :
    answerOf (.feed b) s = answerOf (classInstr (classify s.params s.rxEsc b) b) s := by
  simp only [answerOf, accessesBuffer, appends, feedClass_classInstr, mayIssue_classInstr_classify,
    orderRefusal_classInstr, afterExec_feed]
  rfl

/-- Every answer of every operation. -/
theorem exec_eq (i : Instr) (s : State) : exec i s = configured s (answerOf i s) := by
  cases i with
  | decLit b => exact exec_classInstr_eq .lit b s
  | decStart => exact exec_classInstr_eq .start s.params.startMarker s
  | decEnd => exact exec_classInstr_eq .finish s.params.endMarker s
  | decEsc => exact exec_classInstr_eq .escape s.params.escMarker s
  | decData b => exact exec_classInstr_eq .data b s
  | encBegin => exact inEncState_eq_configured _ .idle s _ rfl rfl rfl rfl
  | encPut b => exact inEncState_eq_configured _ .body s _ rfl rfl rfl rfl
  | encEnd => exact inEncState_eq_configured _ .body s _ rfl rfl rfl rfl
  | crcClr | crcUpd _ | crcRd | reset => rfl
  | feed b => rw [exec_feed_eq_exec_classInstr, exec_classInstr_eq, answerOf_feed]

/-- When an operation completes, and with which state. -/
theorem exec_eq_next_iff (i : Instr) (s t : State) :
    exec i s = .next t ↔ (s.params.valid = true ∧ mayIssue i s = true
      ∧ (accessesBuffer i s = true → s.rxLen ≤ s.params.cap)) ∧ t = afterExec i s := by
  rw [exec_eq, configured, answerOf]
  split_ifs with hv hm hb
  · simp [hm]
  · simp [hb]
  · simp only [Bool.not_eq_false] at hm
    simp only [not_and, Nat.not_lt] at hb
    simpa [hv, hm, eq_comm (a := t)] using fun _ => hb
  · simp [hv]

theorem eq_afterExec_of_next (i : Instr) (s t : State) (h : exec i s = .next t) : t = afterExec i s := by
  obtain ⟨-, ht⟩ := (exec_eq_next_iff i s t).1 h
  exact ht

/-- In a state that meets the invariant only the order of operations decides. -/
theorem exec_of_inv (i : Instr) (s : State) (hi : Inv s) :
    exec i s = if mayIssue i s = true then .next (afterExec i s) else .refused (orderRefusal i) := by
  rw [exec_eq, configured_of_valid _ _ hi.valid, answerOf]
  simp [Nat.not_lt.2 hi.lenLe, ← ite_not (mayIssue i s = true)]

theorem exec_of_not_mayIssue (i : Instr) (s : State) (hv : s.params.valid = true) (hm : mayIssue i s = false) :
    exec i s = .refused (orderRefusal i) := by
  rw [exec_eq, configured_of_valid _ _ hv, answerOf, if_pos hm]

/-! ### What holds of the next state of every operation -/

@[simp] theorem afterClass_params (c : ByteClass) (b : Byte) (s : State) : (afterClass c b s).params = s.params := by
  obtain ⟨-, -, -, -, happend, -⟩ := afterAppend_frame s b
  cases c
  case lit | data => exact happend
  case start | finish | escape => rfl

@[simp] theorem afterExec_params (i : Instr) (s : State) : (afterExec i s).params = s.params := by
  cases i
  case decLit | decStart | decEnd | decEsc | decData | feed => exact afterClass_params ..
  case crcClr | crcUpd | crcRd | encBegin | encPut | encEnd | reset => rfl

/-- No next state depends on the result before it. -/
theorem afterExec_setOutput (i : Instr) (s : State) (o : Output) :
    afterExec i { s with output := o } = afterExec i s := by
  have dec : ∀ c b, afterClass c b { s with output := o } = afterClass c b s := fun c _ => by cases c <;> rfl
  cases i
  case decLit | decStart | decEnd | decEsc | decData | feed => simp only [afterExec, dec]
  case crcClr | crcUpd | crcRd | encBegin | encPut | encEnd | reset => rfl

/-- Every next state of a step: the block is idle, or an operation runs; the host's list may have moved on. -/
theorem step_eq_next (s t : State) (h : step s = .next t) :
    ∃ rest, t = answer { s with issued := rest } .none ∨ ∃ i, exec i { s with issued := rest } = .next t := by
  rcases step_cases s with ⟨-, hs⟩ | ⟨w, rest, -, ⟨i, -, hs⟩ | ⟨-, hs⟩ | ⟨-, hs⟩⟩
  · obtain ⟨-, hn⟩ := configured_eq_next _ _ _ (hs.symm.trans h)
    cases hn
    exact ⟨s.issued, .inl rfl⟩
  · exact ⟨rest, .inr ⟨i, hs.symm.trans h⟩⟩
  · obtain ⟨-, hn⟩ := configured_eq_next _ _ _ (hs.symm.trans h)
    cases hn
    exact ⟨rest, .inl rfl⟩
  · cases hs.symm.trans h

/-! ### The invariant -/

theorem Inv.setIssued {s : State} (hi : Inv s) (ws : List PortWord) : Inv { s with issued := ws } :=
  ⟨hi.valid, hi.lenLe, hi.canonical, hi.indices, hi.outputFits⟩

/-- An operation that stores no byte and does not lengthen the buffer keeps the invariant. -/
theorem Inv.of_sameBuffer {s t : State} (hi : Inv s) (hp : t.params = s.params) (hb : t.rxBuf = s.rxBuf)
    (hl : t.rxLen ≤ s.rxLen) (ho : t.output.fits s.params.cap = true) : Inv t where
  valid := hp ▸ hi.valid
  lenLe := hp ▸ hl.trans hi.lenLe
  canonical := hb ▸ hi.canonical
  indices := hp ▸ hb ▸ hi.indices
  outputFits := hp ▸ ho

/-- A payload the check hands over leaves room for its two CRC bytes, so it has at most CAP - 2 bytes (R146). -/
theorem listCheck_fits (p : Params) (buf : List Byte) (h : buf.length ≤ p.cap) :
    (feedOutput (listCheck p buf)).fits p.cap = true := by
  rcases hc : listCheck p buf with _ | q
  · rfl
  · obtain ⟨rfl, hlen, -⟩ := listCheck_eq_some p buf q hc
    simp only [feedOutput, Output.fits, List.length_take, decide_eq_true_eq]
    omega

theorem Inv.afterAppend {s : State} (hi : Inv s) (b : Byte) : Inv (afterAppend s b) := by
  unfold Machine.afterAppend
  split
  · exact hi.of_sameBuffer rfl rfl (Nat.zero_le _) rfl
  · next hl =>
    have hroom : s.rxLen < s.params.cap := Nat.lt_of_le_of_ne hi.lenLe hl
    exact ⟨hi.valid, hroom, Memory.wf_write _ _ _ hi.canonical, Memory.below_write _ _ _ _ hi.indices hroom, rfl⟩

theorem Inv.afterClass {s : State} (hi : Inv s) (c : ByteClass) (b : Byte) : Inv (afterClass c b s) := by
  cases c
  case lit | data => exact hi.afterAppend b
  case start => exact hi.of_sameBuffer rfl rfl (Nat.zero_le _) rfl
  case escape => exact hi.of_sameBuffer rfl rfl le_rfl rfl
  case finish => exact hi.of_sameBuffer rfl rfl le_rfl (listCheck_fits _ _ (by simpa using hi.lenLe))

theorem Inv.afterExec {s : State} (hi : Inv s) (i : Instr) : Inv (afterExec i s) := by
  cases i
  case decLit | decStart | decEnd | decEsc | decData | feed => rw [Machine.afterExec]; exact hi.afterClass ..
  case crcClr | crcUpd | crcRd | encBegin | encPut | encEnd => exact hi.of_sameBuffer rfl rfl le_rfl rfl
  case reset => exact hi.of_sameBuffer rfl rfl (Nat.zero_le _) rfl

theorem Inv.of_exec {i : Instr} {s t : State} (hi : Inv s) (h : exec i s = .next t) : Inv t := by
  rw [eq_afterExec_of_next i s t h]
  exact hi.afterExec i

theorem Inv.powerOn (p : Params) (hv : p.valid = true) : Inv (State.powerOn p) :=
  ⟨hv, Nat.zero_le _, rfl, rfl, rfl⟩

/-! ### The obligations -/

/-- Settles O38: a step is idle, which delivers nothing, or runs an operation, and the next state of every operation
meets the invariant: an append finds room below CAP or empties the buffer, and all others store nothing. -/
theorem stepKeepsInvariant : Obligations.StepKeepsInvariant := by
  intro s t hi h
  obtain ⟨rest, rfl | ⟨i, h⟩⟩ := step_eq_next s t h
  · exact (hi.setIssued rest).of_sameBuffer rfl rfl le_rfl rfl
  · exact (hi.setIssued rest).of_exec h

/-- Settles O39: with rx_len at most CAP no access is out of range, so an operation completes or is refused for its
order; the calls that are never out of order are seen from `mayIssue`. -/
theorem noOperationFaults : Obligations.NoOperationFaults := by
  intro s hi
  have nofault : ∀ (i : Instr) (t : State), Inv t → ∀ f, exec i t ≠ .fault f := by
    intro i t ht f h
    rw [exec_of_inv i t ht] at h
    split at h <;> cases h
  refine ⟨fun f h => ?_, fun i => ⟨nofault i s hi, fun r h => ?_⟩⟩
  · rcases step_cases s with ⟨-, hs⟩ | ⟨w, rest, -, ⟨i, -, hs⟩ | ⟨-, hs⟩ | ⟨-, hs⟩⟩ <;> rw [hs] at h
    · rw [idleStep, configured_of_valid _ _ hi.valid] at h; cases h
    · exact nofault i _ (hi.setIssued rest) f h
    · rw [idleStep, configured_of_valid { s with issued := rest } _ hi.valid] at h; cases h
    · cases h
  · rw [exec_of_inv i s hi] at h
    split at h
    · cases h
    · next hm =>
      cases h
      cases i
      case encBegin | encPut | encEnd => exact .inl ⟨rfl, rfl⟩
      case decLit | decStart | decEnd | decEsc | decData => exact .inr ⟨rfl, rfl, fun _ => Instr.noConfusion⟩
      case crcClr | crcUpd | crcRd | feed | reset => exact absurd rfl hm

/-- Settles O40: the equation of `exec` under the invariant. -/
theorem legalOperationsComplete : Obligations.LegalOperationsComplete := by
  intro i s hi
  rw [exec_of_inv i s hi]
  split
  · next hm => exact ⟨fun _ => ⟨_, rfl⟩, fun _ => hm⟩
  · next hm => exact ⟨fun h => absurd h hm, fun ⟨_, h⟩ => by cases h⟩

/-- Settles O42: the parameters of every next state are the old ones. -/
theorem parametersAreFixed : Obligations.ParametersAreFixed := by
  have fixed : ∀ (i : Instr) (s t : State), exec i s = .next t → t.params = s.params := by
    intro i s t h
    rw [eq_afterExec_of_next i s t h, afterExec_params]
  refine ⟨fixed, fun s t h => ?_⟩
  obtain ⟨rest, rfl | ⟨i, h⟩⟩ := step_eq_next s t h
  · rfl
  · exact fixed i { s with issued := rest } t h

/-- Settles O47: neither the tests nor the next state of an operation read the result. -/
theorem resultIsNotLatched : Obligations.ResultIsNotLatched := by
  intro i s o
  have hissue : mayIssue i { s with output := o } = mayIssue i s := by cases i <;> rfl
  have haccess : accessesBuffer i { s with output := o } = accessesBuffer i s := by cases i <;> rfl
  rw [exec_eq, exec_eq, answerOf, answerOf, hissue, haccess, afterExec_setOutput]
  rfl

/-- Settles O21: a class row may be issued only where its byte has its class, and otherwise its order is refused. -/
theorem classRowNeedsItsCondition : Obligations.ClassRowNeedsItsCondition := by
  intro s hv
  refine ⟨fun he b => ?_, fun he => ?_, fun he => ?_, fun he => ?_, fun b hb => ?_⟩
  all_goals refine exec_of_not_mayIssue _ s hv (beq_false_of_ne fun hc => ?_)
  · have table := classify_cases s.params s.rxEsc b
    rw [hc] at table
    simp [he] at table
  · simp [he] at hc
  · simp [he] at hc
  · simp [he] at hc
  · have table := classify_cases s.params s.rxEsc b
    rw [hc] at table
    simp [table] at hb

/-- Settles O35: RESET writes four elements and the result, and stands behind the configuration alone. -/
theorem resetGivesTableValues : Obligations.ResetGivesTableValues := by
  intro s hv
  exact ⟨_, exec_reset_of_valid s hv, rfl, rfl, rfl, rfl, rfl, rfl, fun _ => rfl, rfl, rfl, rfl⟩

/-- Settles O36: power-on is written with these values, and `State.reset` is that of `Config.instanceParams`. -/
theorem powerOnHasTableValues : Obligations.PowerOnHasTableValues :=
  ⟨fun _ => ⟨rfl, rfl, rfl, rfl, rfl, rfl⟩, Config.instanceParams, rfl, rfl⟩

/-- Settles O37: the empty buffer and the result none meet the invariant in every valid configuration. -/
theorem powerOnMeetsInvariant : Obligations.PowerOnMeetsInvariant :=
  ⟨Inv.powerOn Config.instanceParams rfl, Inv.powerOn⟩

/-- Settles O41: the configuration is tested before all else. -/
theorem invalidConfigurationIsRefused : Obligations.InvalidConfigurationIsRefused := by
  intro i s hv
  rw [exec_eq, configured_of_invalid _ _ hv]

end Sys2Proof.Machine

/-! ## Proofs: what every operation leaves unchanged (10_state.md R29, R35) -/

namespace Sys2Proof.Machine

/-! ### The next state of a decoder operation -/

/-- Outside DEC a byte class changes nothing. -/
theorem afterClass_frame (c : ByteClass) (b : Byte) (s : State) :
    SameCrc s (afterClass c b s) ∧ SameEnc s (afterClass c b s) ∧ SameHost s (afterClass c b s) := by
  obtain ⟨hacc, hstate, hcrc, htx, hparams, hissued, -⟩ := afterAppend_frame s b
  cases c
  case lit | data => exact ⟨hacc, ⟨hstate, hcrc, htx⟩, hparams, hissued⟩
  case start | finish | escape => exact ⟨rfl, ⟨rfl, rfl, rfl⟩, rfl, rfl⟩

/-- The byte a DEC operation carries; the marker rows carry none, and their classes use none. -/
def operand : Instr → Byte
  | .decLit b | .decData b | .feed b => b
  | _ => 0x00#8

/-- An operation of DEC is the step of its class. -/
theorem afterExec_of_feedClass (i : Instr) (c : ByteClass) (s : State) (h : feedClass i s = some c) :
    afterExec i s = afterClass c (operand i) s := by
  cases i <;> cases h <;> rfl

theorem isSome_feedClass_of_dec (i : Instr) (s : State) (hu : i.unit = some .dec) :
    ∃ c, feedClass i s = some c := by
  cases i <;> cases hu <;> exact ⟨_, rfl⟩

theorem appends_iff (i : Instr) (s : State) :
    appends i s = true ↔ feedClass i s = some .lit ∨ feedClass i s = some .data := by
  simp [appends]

theorem afterExec_of_appends (i : Instr) (s : State) (h : appends i s = true) :
    afterExec i s = afterAppend s (operand i) := by
  rcases (appends_iff i s).1 h with hc | hc <;> exact afterExec_of_feedClass i _ s hc

theorem afterClass_rxBuf_of_not_append (c : ByteClass) (b : Byte) (s : State) (hl : c ≠ .lit) (hd : c ≠ .data) :
    (afterClass c b s).rxBuf = s.rxBuf := by
  cases c
  case lit => exact absurd rfl hl
  case data => exact absurd rfl hd
  case start | finish | escape => rfl

/-- Only an append stores to rx_buf. -/
theorem afterExec_rxBuf_of_not_appends (i : Instr) (s : State) (h : appends i s = false) :
    (afterExec i s).rxBuf = s.rxBuf := by
  by_cases hu : i.unit = some .dec
  · obtain ⟨c, hc⟩ := isSome_feedClass_of_dec i s hu
    simp only [appends, hc, Bool.or_eq_false_iff, beq_eq_false_iff_ne, ne_eq, Option.some.injEq] at h
    obtain ⟨hl, hd⟩ := h
    rw [afterExec_of_feedClass i c s hc, afterClass_rxBuf_of_not_append c _ s hl hd]
  · cases i
    case decLit | decStart | decEnd | decEsc | decData | feed => exact absurd rfl hu
    case crcClr | crcUpd | crcRd | encBegin | encPut | encEnd | reset => rfl

theorem afterAppend_rxBuf_of_full (s : State) (b : Byte) (h : s.rxLen = s.params.cap) :
    (afterAppend s b).rxBuf = s.rxBuf := by
  rw [afterAppend, if_pos h]

theorem afterAppend_rxBuf_of_room (s : State) (b : Byte) (h : s.rxLen ≠ s.params.cap) :
    (afterAppend s b).rxBuf = s.rxBuf.write s.rxLen b := by
  rw [afterAppend, if_neg h]

/-- A class that may be issued and is DEC.DATA has a clear flag. -/
theorem rxEsc_of_mayIssue_data (i : Instr) (s : State) (hm : mayIssue i s = true)
    (hc : feedClass i s = some .data) : s.rxEsc = false := by
  have clear : ∀ b, classify s.params s.rxEsc b = .data → s.rxEsc = false := fun b hb => by
    have table := classify_cases s.params s.rxEsc b
    rw [hb] at table
    exact table.1
  cases i with
  | decData b => exact clear b (eq_of_beq hm)
  | feed b => exact clear b (Option.some.inj hc)
  | decLit | decStart | decEnd | decEsc | crcClr | crcUpd | crcRd | encBegin | encPut | encEnd | reset => cases hc

/-! ### The bytes emitted -/

theorem stuff_length (p : Params) (b : Byte) : (stuff p b).length = if p.isMarker b = true then 2 else 1 := by
  unfold stuff
  split
  · rfl
  · rfl

theorem stuff_length_bounds (p : Params) (b : Byte) : 1 ≤ (stuff p b).length ∧ (stuff p b).length ≤ 2 := by
  rw [stuff_length]
  split
  · decide
  · decide

/-! ### The obligations -/

/-- Settles O43: DEC by the class of its byte; CRC, ENC and RESET by the fields they write. -/
theorem onlyListedOperationsWrite : Obligations.OnlyListedOperationsWrite := by
  intro i s t h
  obtain ⟨⟨-, hm, -⟩, rfl⟩ := (exec_eq_next_iff i s t).1 h
  by_cases hu : i.unit = some .dec
  · have hdata := rxEsc_of_mayIssue_data i s hm
    obtain ⟨c, hc⟩ := isSome_feedClass_of_dec i s hu
    obtain ⟨hacc, ⟨hstate, hcrc, htx⟩, hhost⟩ := afterClass_frame c (operand i) s
    rw [hc] at hdata ⊢
    rw [afterExec_of_feedClass i c s hc]
    refine ⟨fun _ _ _ => hacc, fun _ _ _ => hstate, fun _ _ => hcrc, fun _ => htx, ?_, ?_, ?_, hhost⟩
    · intro hl hd a
      rw [afterClass_rxBuf_of_not_append c _ s (by simpa using hl) (by simpa using hd)]
    · intro hl hd hs _
      cases c
      case lit | data | start => contradiction
      case finish | escape => rfl
    · intro he hl _
      obtain ⟨-, -, -, -, -, -, hesc, -⟩ := afterAppend_frame s (operand i)
      cases c
      case lit | escape => contradiction
      case data => exact hesc.trans (hdata rfl).symm
      case start | finish => rfl
  · cases i
    case decLit | decStart | decEnd | decEsc | decData | feed => exact absurd rfl hu
    case crcClr | crcUpd | crcRd | encBegin | encPut | encEnd | reset =>
      simp [afterExec, Instr.unit, SameHost]

/-- Settles O44: only an append stores; one that finds room stores its operand at rx_len. -/
theorem memoryUnchangedOutsideStoredByte : Obligations.MemoryUnchangedOutsideStoredByte := by
  intro i s t h
  rw [eq_afterExec_of_next i s t h]
  rcases ha : appends i s with _ | _
  · refine ⟨fun a _ => by rw [afterExec_rxBuf_of_not_appends i s ha], fun _ a b hs _ => ?_⟩
    simp [storesAt, ha] at hs
  · rw [afterExec_of_appends i s ha]
    by_cases hl : s.rxLen = s.params.cap
    · refine ⟨fun a _ => by rw [afterAppend_rxBuf_of_full s _ hl], fun _ a b hs _ => ?_⟩
      simp [storesAt, hl] at hs
    · have hstores : storesAt i s = some s.rxLen := if_pos ⟨ha, hl⟩
      rw [hstores, afterAppend_rxBuf_of_room s _ hl]
      refine ⟨fun a hne => Memory.read_write_other _ _ _ _ fun e => hne (e ▸ rfl), fun hwf a b hs hop => ?_⟩
      have hb : operand i = b := by
        rcases hop with rfl | rfl | rfl <;> rfl
      cases hs
      rw [hb, Memory.read_write_same _ _ _ hwf]

/-- Settles O45: what an encoder call emits is written at the end of tx; no other operation writes tx. -/
theorem transmitStreamOnlyGrows : Obligations.TransmitStreamOnlyGrows := by
  intro i s t h
  rw [eq_afterExec_of_next i s t h]
  have dec : ∀ c b, (afterClass c b s).tx = s.tx ++ [] := fun c b => by
    obtain ⟨-, ⟨-, -, htx⟩, -⟩ := afterClass_frame c b s
    rw [htx, List.append_nil]
  cases i with
  | encBegin => exact ⟨_, rfl, rfl⟩
  | encPut b => exact ⟨_, rfl, stuff_length_bounds s.params b⟩
  | encEnd =>
    refine ⟨_, rfl, ?_⟩
    have hlo := stuff_length_bounds s.params (crcLow (crcFin s.params.crc s.encCrc))
    have hhi := stuff_length_bounds s.params (crcHigh (crcFin s.params.crc s.encCrc))
    simp only [closingBytes, List.length_append, List.length_singleton]
    omega
  | decLit | decStart | decEnd | decEsc | decData | feed => exact ⟨[], dec _ _, rfl⟩
  | crcClr | crcUpd | crcRd | reset => exact ⟨[], (List.append_nil s.tx).symm, rfl⟩

/-- Settles O34: both primitives test the same range; inside it the write is that of the buffer's contents. -/
theorem memReadAfterMemWrite : Obligations.MemReadAfterMemWrite := by
  intro i b s hwf
  refine ⟨fun hi => ⟨_, if_pos hi, ?_, fun j hj => ?_⟩, fun hi => ⟨if_neg hi.not_gt, if_neg hi.not_gt⟩⟩
  · rw [memRead, if_pos hi, Memory.read_write_same _ _ _ hwf]
  · rw [memRead, memRead, Memory.read_write_other _ _ _ _ hj]

end Sys2Proof.Machine

/-! ## Proofs: operations of different units commute (10_state.md R36, 20_memory.md R51) -/

namespace Sys2Proof.Machine

/-- `s` with the elements of one unit, and the result, as in `t` (R29). -/
def graft (u : BlockUnit) (t s : State) : State :=
  match u with
  | .crc => { s with crcAcc := t.crcAcc, output := t.output }
  | .enc => { s with encState := t.encState, encCrc := t.encCrc, tx := t.tx, output := t.output }
  | .dec => { s with rxBuf := t.rxBuf, rxLen := t.rxLen, rxEsc := t.rxEsc, output := t.output }

/-- The elements of one unit, and the parameters, are the same in both states. -/
def AgreeOn (u : BlockUnit) (s t : State) : Prop :=
  t.params = s.params ∧
  match u with
  | .crc => t.crcAcc = s.crcAcc
  | .enc => t.encState = s.encState ∧ t.encCrc = s.encCrc ∧ t.tx = s.tx
  | .dec => t.rxBuf = s.rxBuf ∧ t.rxLen = s.rxLen ∧ t.rxEsc = s.rxEsc

@[simp] theorem graft_output (u : BlockUnit) (t s : State) : (graft u t s).output = t.output := by
  cases u <;> rfl

protected theorem AgreeOn.refl (u : BlockUnit) (s : State) : AgreeOn u s s := by
  cases u
  case crc => exact ⟨rfl, rfl⟩
  case enc | dec => exact ⟨rfl, rfl, rfl, rfl⟩

protected theorem AgreeOn.symm {u : BlockUnit} {s t : State} (h : AgreeOn u s t) : AgreeOn u t s := by
  cases u
  case crc => exact ⟨h.1.symm, h.2.symm⟩
  case enc | dec =>
    obtain ⟨hp, h1, h2, h3⟩ := h
    exact ⟨hp.symm, h1.symm, h2.symm, h3.symm⟩

protected theorem AgreeOn.trans {u : BlockUnit} {s t v : State} (h : AgreeOn u s t) (h' : AgreeOn u t v) :
    AgreeOn u s v := by
  cases u
  case crc => exact ⟨h'.1.trans h.1, h'.2.trans h.2⟩
  case enc | dec =>
    obtain ⟨hp, h1, h2, h3⟩ := h
    obtain ⟨hp', h1', h2', h3'⟩ := h'
    exact ⟨hp'.trans hp, h1'.trans h1, h2'.trans h2, h3'.trans h3⟩

/-- Writing one unit's elements leaves another unit's alone. -/
theorem agreeOn_graft (u v : BlockUnit) (h : u ≠ v) (t s : State) : AgreeOn v s (graft u t s) := by
  cases u <;> cases v
  case crc.crc | enc.enc | dec.dec => exact absurd rfl h
  case enc.crc | dec.crc => exact ⟨rfl, rfl⟩
  case crc.enc | crc.dec | enc.dec | dec.enc => exact ⟨rfl, rfl, rfl, rfl⟩

theorem settled_graft_comm (u v : BlockUnit) (h : u ≠ v) (t t' s : State) :
    (graft u t (graft v t' s)).settled = (graft v t' (graft u t s)).settled := by
  cases u <;> cases v
  case crc.crc | enc.enc | dec.dec => exact absurd rfl h
  case crc.enc | crc.dec | enc.crc | enc.dec | dec.crc | dec.enc => rfl

/-! ### An operation reads and writes its own unit only -/

theorem afterClass_of_agreeOn (c : ByteClass) (b : Byte) (s s' : State) (h : AgreeOn .dec s s') :
    afterClass c b s' = graft .dec (afterClass c b s) s' := by
  obtain ⟨acc, encState, encCrc, rxBuf, rxLen, rxEsc, tx, output, params, issued⟩ := s'
  obtain ⟨rfl, rfl, rfl, rfl⟩ := h
  cases c
  case lit | data =>
    by_cases hl : s.rxLen = s.params.cap
    · simp [afterClass, afterAppend, graft, hl]
    · simp [afterClass, afterAppend, graft, hl]
  case start | finish | escape => rfl

theorem feedClass_of_agreeOn (i : Instr) (s s' : State) (h : AgreeOn .dec s s') :
    feedClass i s' = feedClass i s := by
  obtain ⟨hp, -, -, hesc⟩ := h
  cases i
  case feed => rw [feedClass, feedClass, hp, hesc]
  all_goals rfl

theorem afterExec_of_agreeOn (i : Instr) (u : BlockUnit) (s s' : State) (hu : i.unit = some u)
    (h : AgreeOn u s s') : afterExec i s' = graft u (afterExec i s) s' := by
  cases u with
  | dec =>
    obtain ⟨c, hc⟩ := isSome_feedClass_of_dec i s hu
    rw [afterExec_of_feedClass i c s hc, afterExec_of_feedClass i c s' (feedClass_of_agreeOn i s s' h ▸ hc),
      afterClass_of_agreeOn c _ s s' h]
  | crc =>
    obtain ⟨acc, encState, encCrc, rxBuf, rxLen, rxEsc, tx, output, params, issued⟩ := s'
    obtain ⟨rfl, rfl⟩ := h
    cases i <;> cases hu <;> rfl
  | enc =>
    obtain ⟨acc, encState, encCrc, rxBuf, rxLen, rxEsc, tx, output, params, issued⟩ := s'
    obtain ⟨rfl, rfl, rfl, rfl⟩ := h
    cases i <;> cases hu <;> rfl

theorem exec_of_agreeOn (i : Instr) (u : BlockUnit) (s s' t : State) (hu : i.unit = some u)
    (h : AgreeOn u s s') (ht : exec i s = .next t) : exec i s' = .next (graft u t s') := by
  obtain ⟨⟨hv, hm, hb⟩, rfl⟩ := (exec_eq_next_iff i s t).1 ht
  refine (exec_eq_next_iff i s' _).2 ⟨?_, (afterExec_of_agreeOn i u s s' hu h).symm⟩
  cases i <;> cases hu
  case crcClr | crcUpd | crcRd => exact ⟨h.1 ▸ hv, rfl, fun hacc => by cases hacc⟩
  case encBegin | encPut | encEnd =>
    obtain ⟨hp, hstate, -⟩ := h
    exact ⟨hp ▸ hv, by rw [← hm, mayIssue, mayIssue, hstate], fun hacc => by cases hacc⟩
  case decLit | decStart | decEnd | decEsc | decData | feed =>
    obtain ⟨hp, -, hlen, hesc⟩ := h
    simp only [mayIssue, accessesBuffer, appends, feedClass, hp, hlen, hesc] at hm hb ⊢
    exact ⟨hv, hm, hb⟩

/-! ### The obligation -/

/-- Settles O46: an operation writes its own unit's elements (`graft`), which the other unit's operation neither reads
nor writes, so each gives its own answer before and after the other. -/
theorem unitsCommute : Obligations.UnitsCommute := by
  intro i j u v s s1 s2 hu hv huv h1 h2
  have e1 : s1 = graft u s1 s :=
    Host.Outcome.next.inj (h1.symm.trans (exec_of_agreeOn i u s s s1 hu (.refl u s) h1))
  have e2 : s2 = graft v s2 s1 :=
    Host.Outcome.next.inj (h2.symm.trans (exec_of_agreeOn j v s1 s1 s2 hv (.refl v s1) h2))
  have back : AgreeOn v s1 s := by
    rw [e1]
    exact (agreeOn_graft u v huv s1 s).symm
  refine ⟨graft v s2 s, graft u s1 (graft v s2 s), exec_of_agreeOn j v s1 s s2 hv back h2,
    exec_of_agreeOn i u s _ s1 hu (agreeOn_graft v u huv.symm s2 s) h1, ?_, graft_output .., graft_output ..⟩
  calc (graft u s1 (graft v s2 s)).settled
      = (graft v s2 (graft u s1 s)).settled := settled_graft_comm u v huv s1 s2 s
    _ = s2.settled := by rw [← e1, ← e2]

end Sys2Proof.Machine

/-! ## Proofs: stepping, and the values the spec leaves unspecified (10_state.md R23, R24, R34; 30_encoding.md R72) -/

namespace Sys2Proof.Machine

/-! ### The step, by what the host issues -/

theorem step_of_nil (s : State) (h : s.issued = []) : step s = idleStep s := by
  rw [step, fetch_nil s h]

theorem step_of_cons (s : State) (w : PortWord) (rest : List PortWord) (h : s.issued = w :: rest) :
    step s = runFetched exec w { s with issued := rest } := by
  rw [step, fetch_cons s w rest h]

/-- Settles O49: the fetched word is run by the operation it decodes to. -/
theorem stepRunsDecodedOperation : Obligations.StepRunsDecodedOperation := by
  intro s w rest i hw hd
  rw [step_of_cons s w rest hw, runFetched, hd]

/-- Settles O50: two strobes are refused by name; no strobe and no word are the idle step. -/
theorem strobesOfOneUnitExclude : Obligations.StrobesOfOneUnitExclude := by
  intro s w rest hv
  refine ⟨fun hw hd => ?_, fun hw hd => ?_, fun hw => ?_⟩
  · rw [step_of_cons s w rest hw, runFetched, hd]
  · rw [step_of_cons s w rest hw, runFetched, hd]
    exact configured_of_valid { s with issued := rest } _ hv
  · rw [step_of_nil s hw]
    exact configured_of_valid s _ hv

/-! ### States alike but for unspecified values -/

section
variable {s t : State}

theorem SameSpecified.held_eq (h : SameSpecified s t) : t.held = s.held :=
  State.held_congr s t h.rxLen h.rxBuf

theorem SameSpecified.feedClass_eq (h : SameSpecified s t) (i : Instr) : feedClass i t = feedClass i s := by
  cases i
  case feed => rw [feedClass, feedClass, h.params, h.rxEsc]
  all_goals rfl

theorem SameSpecified.mayIssue_eq (h : SameSpecified s t) (i : Instr) : mayIssue i t = mayIssue i s := by
  cases i <;> simp only [mayIssue, h.params, h.rxEsc, h.encState]

theorem SameSpecified.setIssued (h : SameSpecified s t) (ws : List PortWord) :
    SameSpecified { s with issued := ws } { t with issued := ws } :=
  { h with issued := rfl }

/-- An append writes the same byte at the same index in both, so one more index is specified. -/
theorem sameSpecified_afterAppend (h : SameSpecified s t) (hs : s.rxBuf.wf = true) (ht : t.rxBuf.wf = true)
    (b : Byte) : SameSpecified (afterAppend s b) (afterAppend t b) := by
  obtain ⟨acc, encState, encCrc, rxBuf, rxLen, rxEsc, tx, output, params, issued⟩ := t
  obtain ⟨rfl, rfl, hcrc, hbuf, rfl, rfl, rfl, rfl, rfl, rfl⟩ := h
  unfold afterAppend
  split
  · exact ⟨rfl, rfl, hcrc, fun a ha => absurd ha (Nat.not_lt_zero a), rfl, rfl, rfl, rfl, rfl, rfl⟩
  · refine ⟨rfl, rfl, hcrc, fun a ha => ?_, rfl, rfl, rfl, rfl, rfl, rfl⟩
    rcases Nat.lt_or_eq_of_le (Nat.le_of_lt_succ ha) with hlt | rfl
    · rw [Memory.read_write_other _ _ _ _ (Nat.ne_of_lt hlt), Memory.read_write_other _ _ _ _ (Nat.ne_of_lt hlt)]
      exact hbuf a hlt
    · rw [Memory.read_write_same _ _ _ ht, Memory.read_write_same _ _ _ hs]

theorem sameSpecified_afterClass (h : SameSpecified s t) (hs : s.rxBuf.wf = true) (ht : t.rxBuf.wf = true)
    (c : ByteClass) (b : Byte) : SameSpecified (afterClass c b s) (afterClass c b t) := by
  cases c
  case lit | data => exact sameSpecified_afterAppend h hs ht b
  case start => exact { h with output := rfl, rxLen := rfl, rxBuf := fun a ha => absurd ha (Nat.not_lt_zero a) }
  case finish =>
    rw [afterClass, afterClass, h.held_eq, h.params]
    exact { h with output := rfl }
  case escape => exact { h with rxEsc := rfl, output := rfl }

/-- With a frame open enc_crc is specified; ENC.BEGIN writes it, and no other operation reads it. -/
theorem sameSpecified_afterExec (h : SameSpecified s t) (hs : s.rxBuf.wf = true) (ht : t.rxBuf.wf = true)
    (i : Instr) (hm : mayIssue i s = true) : SameSpecified (afterExec i s) (afterExec i t) := by
  by_cases hu : i.unit = some .dec
  · obtain ⟨c, hc⟩ := isSome_feedClass_of_dec i s hu
    rw [afterExec_of_feedClass i c s hc, afterExec_of_feedClass i c t (h.feedClass_eq i ▸ hc)]
    exact sameSpecified_afterClass h hs ht c _
  · obtain ⟨acc, encState, encCrc, rxBuf, rxLen, rxEsc, tx, output, params, issued⟩ := t
    obtain ⟨rfl, rfl, hcrc, hbuf, rfl, rfl, rfl, rfl, rfl, rfl⟩ := h
    cases i
    case decLit | decStart | decEnd | decEsc | decData | feed => exact absurd rfl hu
    case crcClr | crcUpd | crcRd => exact ⟨rfl, rfl, hcrc, hbuf, rfl, rfl, rfl, rfl, rfl, rfl⟩
    case encBegin => exact ⟨rfl, rfl, fun _ => rfl, hbuf, rfl, rfl, rfl, rfl, rfl, rfl⟩
    case encPut | encEnd =>
      obtain rfl : encCrc = s.encCrc := hcrc (eq_of_beq hm)
      exact ⟨rfl, rfl, fun _ => rfl, hbuf, rfl, rfl, rfl, rfl, rfl, rfl⟩
    case reset =>
      exact ⟨rfl, rfl, nofun, fun a ha => absurd ha (Nat.not_lt_zero a), rfl, rfl, rfl, rfl, rfl, rfl⟩

theorem sameAnswer_exec (h : SameSpecified s t) (hs : Inv s) (ht : Inv t) (i : Instr) :
    SameAnswer (exec i s) (exec i t) := by
  rw [exec_of_inv i s hs, exec_of_inv i t ht, h.mayIssue_eq i]
  split
  · next hm => exact sameSpecified_afterExec h hs.canonical ht.canonical i hm
  · rfl

theorem sameAnswer_idleStep (h : SameSpecified s t) (hs : Inv s) (ht : Inv t) :
    SameAnswer (idleStep s) (idleStep t) := by
  rw [idleStep, idleStep, configured_of_valid _ _ hs.valid, configured_of_valid _ _ ht.valid]
  exact { h with output := rfl }

theorem sameAnswer_step (h : SameSpecified s t) (hs : Inv s) (ht : Inv t) : SameAnswer (step s) (step t) := by
  rcases hw : s.issued with _ | ⟨w, rest⟩
  · rw [step_of_nil s hw, step_of_nil t (h.issued.trans hw)]
    exact sameAnswer_idleStep h hs ht
  · have h' := h.setIssued rest
    have hdec : decode t.params w = decode s.params w := by rw [h.params]
    rw [step_of_cons s w rest hw, step_of_cons t w rest (h.issued.trans hw), runFetched, runFetched, hdec]
    rcases decode s.params w with (_ | _) | i
    · exact sameAnswer_idleStep h' (hs.setIssued rest) (ht.setIssued rest)
    · rfl
    · exact sameAnswer_exec h' (hs.setIssued rest) (ht.setIssued rest) i

end

/-- Settles O48: the relation of U11 is kept by every operation and by a step, since the tests and the next state read
held bytes only, and enc_crc only in a frame. -/
theorem unspecifiedValuesNeverMatter : Obligations.UnspecifiedValuesNeverMatter := by
  intro s t hs ht h
  exact ⟨sameAnswer_exec h hs ht, sameAnswer_step h hs ht⟩

end Sys2Proof.Machine

/-! ## Proofs: port words (30_encoding.md R65, R70 to R72) -/

namespace Sys2Proof

open Sys2Proof.Machine

/-! ### A word is its strobe bits and its data byte -/

theorem strobes_append_data (k : Nat) (w : BitVec (k + 8)) : w.extractLsb' 8 k ++ w.extractLsb' 0 8 = w :=
  (BitVec.extractLsb'_append_extractLsb'_eq_extractLsb' (start₁ := 0) (len₁ := 8) rfl).trans
    BitVec.extractLsb'_eq_self

/-- The don't-care bits cleared (log entry 15): the strobes stay, the data byte is 0. -/
theorem clear_data (k : Nat) (w : BitVec (k + 8)) :
    w &&& (BitVec.allOnes k ++ 0#8) = w.extractLsb' 8 k ++ 0#8 := by
  conv_lhs => rw [← strobes_append_data k w]
  rw [BitVec.and_append, BitVec.and_allOnes, BitVec.and_zero]

/-- A strobe of a word is a bit of its strobe field. -/
theorem getLsbD_eq_strobe {n : Nat} (w : BitVec n) (len i : Nat) (hi : i < len) :
    w.getLsbD (8 + i) = (w.extractLsb' 8 len).getLsbD i := by
  simp [hi]

theorem bitVec1_cases : ∀ x : BitVec 1, x = 0b0#1 ∨ x = 0b1#1 := by decide

theorem bitVec2_cases : ∀ x : BitVec 2, x = 0b00#2 ∨ x = 0b01#2 ∨ x = 0b10#2 ∨ x = 0b11#2 := by decide

theorem bitVec3_cases : ∀ x : BitVec 3, x = 0b000#3 ∨ x = 0b001#3 ∨ x = 0b010#3 ∨ x = 0b011#3
    ∨ x = 0b100#3 ∨ x = 0b101#3 ∨ x = 0b110#3 ∨ x = 0b111#3 := by decide

/-! ### The decoder of each port, by the strobe field -/

theorem decodeCrc_eq (w : BitVec 10) : decodeCrc w
    = if w.extractLsb' 8 2 = 0b11#2 then .error .twoStrobes
      else if w.extractLsb' 8 2 = 0b10#2 then .ok .crcClr
      else if w.extractLsb' 8 2 = 0b01#2 then .ok (.crcUpd (w.extractLsb' 0 8))
      else .ok .crcRd := by
  rw [decodeCrc, getLsbD_eq_strobe w 2 1 (by decide), getLsbD_eq_strobe w 2 0 (by decide)]
  rcases bitVec2_cases (w.extractLsb' 8 2) with h | h | h | h <;> rw [h] <;> rfl

theorem decodeEnc_eq (w : BitVec 11) : decodeEnc w
    = if w.extractLsb' 8 3 = 0b000#3 then .error .noStrobe
      else if w.extractLsb' 8 3 = 0b100#3 then .ok .encBegin
      else if w.extractLsb' 8 3 = 0b010#3 then .ok (.encPut (w.extractLsb' 0 8))
      else if w.extractLsb' 8 3 = 0b001#3 then .ok .encEnd
      else .error .twoStrobes := by
  rw [decodeEnc, getLsbD_eq_strobe w 3 2 (by decide), getLsbD_eq_strobe w 3 1 (by decide),
    getLsbD_eq_strobe w 3 0 (by decide)]
  rcases bitVec3_cases (w.extractLsb' 8 3) with h | h | h | h | h | h | h | h <;> rw [h] <;> rfl

theorem decodeDec_eq (w : BitVec 9) : decodeDec w
    = if w.extractLsb' 8 1 = 0b1#1 then .ok (.feed (w.extractLsb' 0 8)) else .error .noStrobe := by
  rw [decodeDec, getLsbD_eq_strobe w 1 0 (by decide)]
  rcases bitVec1_cases (w.extractLsb' 8 1) with h | h <;> rw [h] <;> rfl

theorem decodeReset_eq (w : BitVec 1) : decodeReset w = if w = 0b1#1 then .ok .reset else .error .noStrobe := by
  rcases bitVec1_cases w with rfl | rfl <;> rfl

/-- The class of a DEC-byte word is that of its flag bit and its byte (R65). -/
theorem decodeDecByte_append (p : Params) (x : BitVec 1) (b : Byte) :
    decodeDecByte p (x ++ b) = classInstr (classify p (x.getLsbD 0) b) b := by
  have hflag : (x ++ b).getLsbD 8 = x.getLsbD 0 := BitVec.getLsbD_append
  rw [decodeDecByte, hflag, BitVec.extractLsb'_append_eq_right]

/-- The word of a byte's class row is the flag and the byte again: a class with a marker determines the byte. -/
theorem encodeWord_classInstr (p : Params) (x : BitVec 1) (b : Byte) :
    encodeWord p (classInstr (classify p (x.getLsbD 0) b) b) = .decByte (x ++ b) := by
  have table := classify_cases p (x.getLsbD 0) b
  rcases bitVec1_cases x with rfl | rfl
  · rcases hc : classify p ((0b0#1).getLsbD 0) b <;> rw [hc] at table
    case lit => cases table
    case start | finish | escape =>
      obtain ⟨-, rfl⟩ := table
      rfl
    case data => rfl
  · rfl

theorem wellFormed_classInstr (p : Params) (esc : Bool) (b : Byte) :
    (classInstr (classify p esc b) b).wellFormed p = true := by
  have table := classify_cases p esc b
  rcases hc : classify p esc b <;> rw [hc] at table
  case data => simp [classInstr, Instr.wellFormed, table]
  case lit | start | finish | escape => rfl

/-! ### The obligations -/

/-- Settles O51: the strobe field and the byte read back from the encoder's word; a class row's byte has its class, as
the markers of a valid configuration are distinct and DEC.DATA carries none of them. -/
theorem decodeOfEncodedWord : Obligations.DecodeOfEncodedWord := by
  intro p i hv hw
  cases i with
  | decLit b => exact congrArg Except.ok (decodeDecByte_append p 1#1 b)
  | decStart =>
    refine congrArg Except.ok ((decodeDecByte_append p 0#1 p.startMarker).trans ?_)
    exact congrArg (classInstr · _) (classify_startMarker p)
  | decEnd =>
    refine congrArg Except.ok ((decodeDecByte_append p 0#1 p.endMarker).trans ?_)
    exact congrArg (classInstr · _) (classify_endMarker p hv)
  | decEsc =>
    refine congrArg Except.ok ((decodeDecByte_append p 0#1 p.escMarker).trans ?_)
    exact congrArg (classInstr · _) (classify_escMarker p hv)
  | decData b =>
    refine congrArg Except.ok ((decodeDecByte_append p 0#1 b).trans ?_)
    exact congrArg (classInstr · _) (classify_plain p b (by simpa [Instr.wellFormed] using hw))
  | crcClr | crcUpd _ | crcRd =>
    rw [encodeWord, decode, decodeCrc_eq, BitVec.extractLsb'_append_eq_left, BitVec.extractLsb'_append_eq_right]
    rfl
  | encBegin | encPut _ | encEnd =>
    rw [encodeWord, decode, decodeEnc_eq, BitVec.extractLsb'_append_eq_left, BitVec.extractLsb'_append_eq_right]
    rfl
  | feed b =>
    rw [encodeWord, decode, decodeDec_eq, BitVec.extractLsb'_append_eq_left, BitVec.extractLsb'_append_eq_right]
    rfl
  | reset => rfl

/-- Settles O52: each word is its strobe field and its byte, and the encoder writes both again, the byte as 0 where
the operation has none. -/
theorem encodedWordOfDecodedPair : Obligations.EncodedWordOfDecodedPair := by
  intro p w _
  refine ⟨⟨_, rfl, ?_, ?_⟩, fun i hd => ?_, fun v i hd => ?_, fun v i hd => ?_, fun v i hd => ?_⟩
  · exact wellFormed_classInstr p _ _
  · have hw : w.extractLsb' 8 1 ++ w.extractLsb' 0 8 = w := strobes_append_data 1 w
    rw [← hw, decodeDecByte_append, encodeWord_classInstr]
  · have hw : w.extractLsb' 8 1 ++ w.extractLsb' 0 8 = w := strobes_append_data 1 w
    rw [decode, decodeDec_eq] at hd
    split_ifs at hd with h1
    cases hd
    rw [h1] at hw
    exact congrArg PortWord.dec hw
  · rw [decode, decodeReset_eq] at hd
    split_ifs at hd with h1
    cases hd
    rw [h1]
    rfl
  · have hw : v.extractLsb' 8 2 ++ v.extractLsb' 0 8 = v := strobes_append_data 2 v
    have hclear : v &&& 0b1100000000#10 = v.extractLsb' 8 2 ++ 0#8 := clear_data 2 v
    rw [decode, decodeCrc_eq] at hd
    rw [hclear]
    rcases bitVec2_cases (v.extractLsb' 8 2) with h | h | h | h <;> rw [h] at hd hw ⊢ <;> cases hd
    · rfl
    · exact congrArg PortWord.crc hw
    · rfl
  · have hw : v.extractLsb' 8 3 ++ v.extractLsb' 0 8 = v := strobes_append_data 3 v
    have hclear : v &&& 0b11100000000#11 = v.extractLsb' 8 3 ++ 0#8 := clear_data 3 v
    rw [decode, decodeEnc_eq] at hd
    rw [hclear]
    rcases bitVec3_cases (v.extractLsb' 8 3) with h | h | h | h | h | h | h | h <;> rw [h] at hd hw ⊢ <;> cases hd
    · rfl
    · exact congrArg PortWord.enc hw
    · rfl

/-- Settles O53: the eleven words, evaluated. -/
theorem tableWordsDecode : Obligations.TableWordsDecode := by
  unfold Obligations.TableWordsDecode
  decide

/-- Settles O54: the decoder of each port by its strobe field. -/
theorem portWordsDecodeByStrobes : Obligations.PortWordsDecodeByStrobes := by
  intro p
  exact ⟨decodeCrc_eq, decodeEnc_eq, decodeDec_eq, decodeReset_eq⟩

end Sys2Proof

/-! ## Proofs: sequences of CRC operations, and the reflected CRC (40_crc16.md R94, R98) -/

namespace Sys2Proof.Machine

/-! ### The sequence of R98 -/

theorem runOps_singleton (i : Instr) (s t : State) (h : exec i s = .next t) :
    runOps [i] s = .next (t, [t.output]) :=
  runOps_cons i [] s t t [] h rfl

theorem runOps_crcUpd (bytes : List Byte) (s : State) (hv : s.params.valid = true) :
    ∃ t outs, runOps (bytes.map .crcUpd) s = .next (t, outs)
      ∧ t.crcAcc = crcFold s.params.crc s.crcAcc bytes ∧ t.params = s.params := by
  induction bytes generalizing s with
  | nil => exact ⟨s, [], rfl, rfl, rfl⟩
  | cons b bytes ih =>
    obtain ⟨t, outs, hrun, hacc, hparams⟩ := ih (answer { s with crcAcc := crcUpd s.params.crc s.crcAcc b } .none) hv
    exact ⟨t, _, runOps_cons _ _ _ _ _ _ (exec_crcUpd_of_valid b s hv) hrun, hacc, hparams⟩

/-- From CRC_INIT, the bytes and then CRC.RD return crc16 of the bytes. -/
theorem runOps_crcUpd_crcRd (bytes : List Byte) (s : State) (hv : s.params.valid = true)
    (ha : s.crcAcc = crcInit s.params.crc) :
    ∃ t outs, runOps (bytes.map .crcUpd ++ [.crcRd]) s = .next (t, outs ++ [.crc (crc16 s.params.crc bytes)]) := by
  obtain ⟨t, outs, hrun, hacc, hparams⟩ := runOps_crcUpd bytes s hv
  have hrd := runOps_singleton _ _ _ (exec_crcRd_of_valid t (hparams ▸ hv))
  have hvalue : t.crcPort = crc16 s.params.crc bytes := by
    rw [State.crcPort, hacc, hparams, ha, crc16_eq_crcFin_crcFold]
  rw [answer_output, hvalue] at hrd
  exact ⟨_, outs, runOps_append _ _ _ _ _ _ _ hrun hrd⟩

/-- Settles O4: CRC.CLR loads CRC_INIT, and from there each CRC.UPD is one step of the fold. -/
theorem crcSequenceComputesCrc16 : Obligations.CrcSequenceComputesCrc16 := by
  intro bytes s hv
  refine ⟨?_, runOps_crcUpd_crcRd bytes s hv⟩
  obtain ⟨t, outs, hrun⟩ :=
    runOps_crcUpd_crcRd bytes (answer { s with crcAcc := crcInit s.params.crc } .none) hv rfl
  exact ⟨t, _ :: outs, runOps_cons _ _ _ _ _ _ (exec_crcClr_of_valid s hv) hrun⟩

/-! ### The mirror -/

theorem getLsbD_rev16 (v : U16) (i : Nat) : (rev16 v).getLsbD i = (decide (i < 16) && v.getLsbD (15 - i)) := by
  rw [rev16, BitVec.getLsbD_reverse, BitVec.getMsbD_eq_getLsbD]

theorem rev16_xor (v w : U16) : rev16 (v ^^^ w) = rev16 v ^^^ rev16 w := by
  refine BitVec.eq_of_getLsbD_eq fun i hi => ?_
  simp only [getLsbD_rev16, BitVec.getLsbD_xor, hi, decide_true, Bool.true_and]

theorem rev16_shiftLeft_one (v : U16) : rev16 (v <<< 1) = rev16 v >>> 1 := by
  refine BitVec.eq_of_getLsbD_eq fun i hi => ?_
  rw [BitVec.getLsbD_ushiftRight, getLsbD_rev16, getLsbD_rev16, BitVec.getLsbD_shiftLeft]
  by_cases h15 : i = 15
  · simp [h15]
  · have e : 15 - i - 1 = 15 - (1 + i) := by omega
    simp [hi, e, show 15 - i < 16 by omega, show ¬ 15 - i < 1 by omega, show 1 + i < 16 by omega]

/-- A byte in the high half is, mirrored, the mirrored byte in the low half. -/
theorem rev16_byte_high (b : Byte) : rev16 (b.zeroExtend 16 <<< 8) = b.reverse.zeroExtend 16 := by
  refine BitVec.eq_of_getLsbD_eq fun i hi => ?_
  rw [getLsbD_rev16, BitVec.getLsbD_shiftLeft, BitVec.zeroExtend,
    BitVec.getLsbD_setWidth, BitVec.getLsbD_setWidth, BitVec.getLsbD_reverse, BitVec.getMsbD_eq_getLsbD]
  by_cases h8 : i < 8
  · have e : 15 - i - 8 = 7 - i := by omega
    simp [hi, h8, e, show 15 - i < 16 by omega, show ¬ 15 - i < 8 by omega, show 7 - i < 16 by omega]
  · simp [hi, h8, show 15 - i < 8 by omega]

/-- One bit step in the mirror: bit 15 becomes bit 0, and a shift left a shift right. -/
theorem crcStepLsb_rev16 (poly a : U16) : crcStepLsb poly (rev16 a) = rev16 (crcStepMsb poly a) := by
  have hbit : (rev16 a).getLsbD 0 = a.getLsbD 15 := getLsbD_rev16 a 0
  rw [crcStepLsb, crcStepMsb, hbit, ← rev16_shiftLeft_one, ← rev16_xor, apply_ite rev16]

theorem eightTimes_rev16 (f g : U16 → U16) (h : ∀ a, f (rev16 a) = rev16 (g a)) (a : U16) :
    eightTimes f (rev16 a) = rev16 (eightTimes g a) := by
  simp only [eightTimes, h]

/-- Settles O6: the two branches of R94 differ by the mirror in each part: the byte's place, and the bit step. -/
theorem reflectedUpdateMirrorsUnreflected : Obligations.ReflectedUpdateMirrorsUnreflected := by
  intro c a b
  have hstart : rev16 a ^^^ b.reverse.zeroExtend 16 = rev16 (a ^^^ (b.zeroExtend 16 <<< 8)) := by
    rw [rev16_xor, rev16_byte_high]
  simp only [familyUpd, if_true, Bool.false_eq_true, if_false, hstart]
  exact eightTimes_rev16 _ _ (crcStepLsb_rev16 c.poly) _

end Sys2Proof.Machine

/-! ## Proofs: frames and the streaming encoder (41_encoder.md R110 to R112, R118) -/

namespace Sys2Proof.Machine

/-! ### Stuffing a body -/

@[simp] theorem stuffAll_nil (p : Params) : stuffAll p [] = [] := rfl

@[simp] theorem stuffAll_cons (p : Params) (b : Byte) (body : List Byte) :
    stuffAll p (b :: body) = stuff p b ++ stuffAll p body := rfl

theorem stuffAll_append (p : Params) (xs ys : List Byte) : stuffAll p (xs ++ ys) = stuffAll p xs ++ stuffAll p ys :=
  List.flatMap_append ..

theorem stuffAll_length (p : Params) (body : List Byte) :
    (stuffAll p body).length = body.length + markerCount p body := by
  induction body with
  | nil => rfl
  | cons b body ih =>
    rw [stuffAll_cons, List.length_append, ih, stuff_length, markerCount, markerCount, List.countP_cons,
      List.length_cons]
    split <;> omega

theorem frameBody_length (p : Params) (payload : List Byte) :
    (frameBody p payload).length = payload.length + 2 := by
  simp [frameBody]

/-- Settles O12: stuffing adds one byte for each marker of the body, of which there are at most as many as bytes. -/
theorem frameLengthIsExact : Obligations.FrameLengthIsExact := by
  intro p payload
  have hbody := frameBody_length p payload
  have hlen : (encodeFrame p payload).length = payload.length + 4 + markerCount p (frameBody p payload) := by
    simp only [encodeFrame, List.length_append, stuffAll_length, hbody, List.length_singleton]
    omega
  have hle : markerCount p (frameBody p payload) ≤ (frameBody p payload).length := List.countP_le_length
  have hall : markerCount p (frameBody p payload) = (frameBody p payload).length
      ↔ ∀ b ∈ frameBody p payload, p.isMarker b = true := List.countP_eq_length
  refine ⟨hlen, by omega, by omega, ?_⟩
  rw [← hall]
  omega

/-! ### The classes of a frame's bytes -/

/-- The classes of a stuffed body's bytes (R65, R66): an escaped marker, or a plain byte. -/
def bodyClasses (p : Params) (body : List Byte) : List ByteClass :=
  body.flatMap fun b => if p.isMarker b = true then [.escape, .lit] else [.data]

theorem scanClasses_stuffAll_append (p : Params) (hv : p.valid = true) (body rest : List Byte) :
    scanClasses p false (stuffAll p body ++ rest) = bodyClasses p body ++ scanClasses p false rest := by
  induction body with
  | nil => rfl
  | cons b body ih =>
    rw [stuffAll_cons, bodyClasses, List.flatMap_cons, ← bodyClasses, List.append_assoc, List.append_assoc, ← ih, stuff]
    cases hm : p.isMarker b
    · simp [scanClasses, classify_plain p b hm, show (ByteClass.data == ByteClass.escape) = false from rfl]
    · simp [scanClasses, classify_escMarker p hv, show (ByteClass.lit == ByteClass.escape) = false from rfl]

theorem delimiters_not_mem_bodyClasses (p : Params) (body : List Byte) :
    .start ∉ bodyClasses p body ∧ .finish ∉ bodyClasses p body := by
  have hmem : ∀ c ∈ bodyClasses p body, c = .escape ∨ c = .lit ∨ c = .data := by
    intro c hc
    obtain ⟨b, -, hb⟩ := List.mem_flatMap.1 hc
    split at hb
    · simp only [List.mem_cons, List.not_mem_nil, or_false] at hb
      exact hb.imp_right .inl
    · exact .inr (.inr (List.mem_singleton.1 hb))
  exact ⟨fun h => by simpa using hmem _ h, fun h => by simpa using hmem _ h⟩

/-- Settles O13: inside the delimiters every marker is escaped, so the scan sees literal and plain bytes only. -/
theorem frameDelimitersAreTheOnlyOnes : Obligations.FrameDelimitersAreTheOnlyOnes := by
  intro p payload hv
  refine ⟨bodyClasses p (frameBody p payload), ?_, delimiters_not_mem_bodyClasses p _⟩
  have hend : scanClasses p false [p.endMarker] = [.finish] := by
    simp [scanClasses, classify_endMarker p hv]
  have hstart : (ByteClass.start == ByteClass.escape) = false := by decide
  rw [encodeFrame, List.append_assoc, List.singleton_append, scanClasses, classify_startMarker, hstart,
    scanClasses_stuffAll_append p hv, hend]
  rfl

/-! ### The streaming encoder alone -/

theorem closingBytes_eq (p : Params) (c : U16) :
    closingBytes p c = stuffAll p [crcLow c, crcHigh c] ++ [p.endMarker] := by
  simp [closingBytes]

theorem runOps_encPut (payload : List Byte) (s : State) (hv : s.params.valid = true) (he : s.encState = .body) :
    ∃ t outs, runOps (payload.map .encPut) s = .next (t, outs) ∧ t.tx = s.tx ++ stuffAll s.params payload
      ∧ t.encCrc = crcFold s.params.crc s.encCrc payload ∧ t.encState = .body ∧ t.params = s.params := by
  induction payload generalizing s with
  | nil => exact ⟨s, [], rfl, by simp, rfl, he, rfl⟩
  | cons b payload ih =>
    obtain ⟨t, outs, hrun, htx, hcrc, hbody, hparams⟩ := ih
      (answer { emit s (stuff s.params b) with encCrc := crcUpd s.params.crc s.encCrc b } .none) hv he
    refine ⟨t, _, runOps_cons _ _ _ _ _ _ (exec_encPut_of_body b s hv he) hrun, ?_, hcrc, hbody, hparams⟩
    rw [htx, stuffAll_cons, ← List.append_assoc]
    rfl

theorem runOps_encodeOps (payload : List Byte) (s : State) (hv : s.params.valid = true) (he : s.encState = .idle) :
    ∃ t outs, runOps (encodeOps payload) s = .next (t, outs)
      ∧ t.tx = s.tx ++ encodeFrame s.params payload ∧ t.encState = .idle := by
  have hbegin := exec_encBegin_of_idle s hv he
  obtain ⟨u, outs, hrun, htx, hcrc, hbody, hparams⟩ := runOps_encPut payload
    (answer { emit s [s.params.startMarker] with encCrc := crcInit s.params.crc, encState := .body } .none) hv rfl
  have hend := runOps_singleton _ _ _ (exec_encEnd_of_body u (hparams ▸ hv) hbody)
  have hbytes : closingBytes u.params (crcFin u.params.crc u.encCrc)
      = closingBytes s.params (crc16 s.params.crc payload) := by
    rw [hparams, hcrc, crc16_eq_crcFin_crcFold]
    rfl
  refine ⟨_, _, runOps_cons _ _ _ _ _ _ hbegin (runOps_append _ _ _ _ _ _ _ hrun hend), ?_, rfl⟩
  rw [answer_tx, emit_tx, hbytes, htx, closingBytes_eq, encodeFrame, frameBody, stuffAll_append]
  simp

/-! ### Interleaved operations of the other units -/

theorem runOps_cons_eq_next (i : Instr) (rest : List Instr) (s u : State) (outs : List Output)
    (h : runOps (i :: rest) s = .next (u, outs)) :
    ∃ t outs', exec i s = .next t ∧ runOps rest t = .next (u, outs') := by
  rw [runOps] at h
  split at h
  · cases h
  · cases h
  · next t ht =>
    split at h
    · cases h
    · cases h
    · next v outs' hrest =>
      cases h
      exact ⟨t, outs', ht, hrest⟩

/-- An operation of another unit leaves a unit's elements alone. -/
theorem agreeOn_afterExec (i : Instr) (u v : BlockUnit) (s : State) (hu : i.unit = some u) (huv : u ≠ v) :
    AgreeOn v s (afterExec i s) := by
  rw [afterExec_of_agreeOn i u s s hu (.refl u s)]
  exact agreeOn_graft u v huv _ s

/-- Operations of CRC, and FEEDs, complete and touch no element of ENC. -/
theorem exec_beside_encoder (i : Instr) (s : State) (hi : Inv s) (h : i.unit = some .crc ∨ ∃ b, i = .feed b) :
    exec i s = .next (afterExec i s) ∧ AgreeOn .enc s (afterExec i s) := by
  have hissue : mayIssue i s = true := by
    rcases h with hu | ⟨b, rfl⟩
    · cases i <;> cases hu <;> rfl
    · rfl
  refine ⟨by rw [exec_of_inv i s hi, if_pos hissue], ?_⟩
  rcases h with hu | ⟨b, rfl⟩
  · exact agreeOn_afterExec i .crc .enc s hu (by decide)
  · exact agreeOn_afterExec _ .dec .enc s rfl (by decide)

/-- Among operations that touch no element of ENC, the encoder's operations run as they do alone. -/
theorem runOps_interleaved (ops : List Instr) (s s' u : State) (outs : List Output) (hi : Inv s')
    (ha : AgreeOn .enc s s')
    (hops : ∀ i ∈ ops, i.unit = some .enc ∨ i.unit = some .crc ∨ ∃ b, i = .feed b)
    (hrun : runOps (ops.filter fun i => i.unit == some .enc) s = .next (u, outs)) :
    ∃ t outs', runOps ops s' = .next (t, outs') ∧ AgreeOn .enc u t := by
  induction ops generalizing s s' outs with
  | nil =>
    cases hrun
    exact ⟨s', [], rfl, ha⟩
  | cons i ops ih =>
    obtain ⟨hhead, htail⟩ := List.forall_mem_cons.1 hops
    by_cases hu : i.unit = some .enc
    · rw [List.filter_cons_of_pos (by simpa using hu)] at hrun
      obtain ⟨s1, outs1, hexec, hrest⟩ := runOps_cons_eq_next _ _ _ _ _ hrun
      have hexec' := exec_of_agreeOn i .enc s s' s1 hu ha hexec
      have ha1 : AgreeOn .enc s1 (graft .enc s1 s') := by
        rw [eq_afterExec_of_next i s s1 hexec]
        exact ⟨ha.1.trans (afterExec_params i s).symm, rfl, rfl, rfl⟩
      obtain ⟨t, outs', hrun', hat⟩ := ih s1 _ outs1 (hi.of_exec hexec') ha1 htail hrest
      exact ⟨t, _, runOps_cons _ _ _ _ _ _ hexec' hrun', hat⟩
    · rw [List.filter_cons_of_neg (by simpa using hu)] at hrun
      obtain ⟨hexec, hkeep⟩ := exec_beside_encoder i s' hi (hhead.resolve_left hu)
      obtain ⟨t, outs', hrun', hat⟩ := ih s _ outs (hi.afterExec i) (ha.trans hkeep) htail hrun
      exact ⟨t, _, runOps_cons _ _ _ _ _ _ hexec hrun', hat⟩

/-- Settles O11: the encoder's operations alone emit the frame, and what is interleaved does not touch them. -/
theorem encodeEmitsExactlyTheFrame : Obligations.EncodeEmitsExactlyTheFrame := by
  intro payload ops s hi he hfilter hops
  obtain ⟨u, outs, hrun, htx, hidle⟩ := runOps_encodeOps payload s hi.valid he
  rw [← hfilter] at hrun
  obtain ⟨t, outs', hrun', -, hstate, -, htx'⟩ := runOps_interleaved ops s s u outs hi (.refl _ s) hops hrun
  exact ⟨t, outs', hrun', htx'.trans htx, hstate.trans hidle⟩

end Sys2Proof.Machine

/-! ## Proofs: the decoder as a decoder over one list (10_state.md R24, 42_decoder.md R137 to R147) -/

namespace Sys2Proof.Machine

/-! ### The refinement, one FEED -/

theorem exec_feed_of_inv (b : Byte) (s : State) (hi : Inv s) : exec (.feed b) s = .next (afterExec (.feed b) s) := by
  rw [exec_of_inv _ s hi]
  rfl

theorem afterExec_feed_refines (b : Byte) (s : State) (hi : Inv s) :
    (afterExec (.feed b) s).listDec = (listFeed s.params s.listDec b).1
      ∧ (afterExec (.feed b) s).output = feedOutput (listFeed s.params s.listDec b).2 := by
  have table := classify_cases s.params s.rxEsc b
  obtain ⟨-, -, -, -, -, -, hesc, -⟩ := afterAppend_frame s b
  have happend := afterAppend_held s b hi.canonical
  rw [afterExec, listFeed, State.listDec, State.listDec]
  dsimp only
  rcases hc : classify s.params s.rxEsc b <;> rw [hc] at table
  case lit => simp [afterClass, feedOutput, happend, hesc]
  case data => simp [afterClass, feedOutput, happend, hesc, table.1]
  case start => simp [afterClass, feedOutput, State.held]
  case finish => simp [afterClass]
  case escape => simp [afterClass, feedOutput]

/-- Settles O22: FEED completes with the step of its byte's class, and each class does to the held bytes, the flag and
the result what the list decoder does. -/
theorem decoderRefinesListDecoder : Obligations.DecoderRefinesListDecoder := by
  intro b s hi
  exact ⟨_, exec_feed_of_inv b s hi, afterExec_feed_refines b s hi⟩

/-! ### The refinement, a stream -/

/-- The list decoder fed a stream: the decoder after it, and what each byte delivers. -/
def listRun (p : Params) (d : ListDec) : List Byte → ListDec × List (Option (List Byte))
  | [] => (d, [])
  | b :: bytes =>
    ((listRun p (listFeed p d b).1 bytes).1, (listFeed p d b).2 :: (listRun p (listFeed p d b).1 bytes).2)

theorem listRun_append (p : Params) (d : ListDec) (xs ys : List Byte) :
    listRun p d (xs ++ ys)
      = ((listRun p (listRun p d xs).1 ys).1, (listRun p d xs).2 ++ (listRun p (listRun p d xs).1 ys).2) := by
  induction xs generalizing d with
  | nil => rfl
  | cons b xs ih => simp only [List.cons_append, listRun, ih]

/-- A stream fed to the machine runs as the list decoder does, and keeps the invariant. -/
theorem runOps_feedOps (bytes : List Byte) (s : State) (hi : Inv s) :
    ∃ t, runOps (feedOps bytes) s = .next (t, (listRun s.params s.listDec bytes).2.map feedOutput)
      ∧ t.listDec = (listRun s.params s.listDec bytes).1 := by
  induction bytes generalizing s with
  | nil => exact ⟨s, rfl, rfl⟩
  | cons b bytes ih =>
    obtain ⟨hdec, hout⟩ := afterExec_feed_refines b s hi
    obtain ⟨t, hrun, ht⟩ := ih _ (hi.afterExec (.feed b))
    rw [hdec, afterExec_params] at hrun ht
    refine ⟨t, ?_, ht⟩
    rw [feedOps, List.map_cons, ← feedOps, runOps_cons _ _ _ _ _ _ (exec_feed_of_inv b s hi) hrun, hout]
    rfl

/-! ### The list decoder, by the byte -/

theorem listFeed_literal (p : Params) (buf : List Byte) (b : Byte) :
    listFeed p ⟨buf, true⟩ b = (⟨listAppend p buf b, false⟩, none) := rfl

theorem listFeed_startMarker (p : Params) (buf : List Byte) :
    listFeed p ⟨buf, false⟩ p.startMarker = (⟨[], false⟩, none) := by
  rw [listFeed, classify_startMarker]

theorem listFeed_endMarker (p : Params) (hv : p.valid = true) (buf : List Byte) :
    listFeed p ⟨buf, false⟩ p.endMarker = (⟨buf, false⟩, listCheck p buf) := by
  rw [listFeed, classify_endMarker p hv]

theorem listFeed_escMarker (p : Params) (hv : p.valid = true) (buf : List Byte) :
    listFeed p ⟨buf, false⟩ p.escMarker = (⟨buf, true⟩, none) := by
  rw [listFeed, classify_escMarker p hv]

theorem listFeed_plain (p : Params) (buf : List Byte) (b : Byte) (h : p.isMarker b = false) :
    listFeed p ⟨buf, false⟩ b = (⟨listAppend p buf b, false⟩, none) := by
  rw [listFeed, classify_plain p b h]

/-! ### The list decoder, by the part of a frame -/

theorem listRun_stuff (p : Params) (hv : p.valid = true) (buf : List Byte) (b : Byte) :
    listRun p ⟨buf, false⟩ (stuff p b) = (⟨listAppend p buf b, false⟩, List.replicate (stuff p b).length none) := by
  unfold stuff
  cases hm : p.isMarker b
  · simp [listRun, listFeed_plain p buf b hm]
  · simp [listRun, listFeed_escMarker p hv, listFeed_literal, List.replicate]

/-- A stuffed body is appended byte by byte, and nothing is delivered on the way. -/
theorem listRun_stuffAll (p : Params) (hv : p.valid = true) (buf body : List Byte) :
    listRun p ⟨buf, false⟩ (stuffAll p body)
      = (⟨body.foldl (listAppend p) buf, false⟩, List.replicate (stuffAll p body).length none) := by
  induction body generalizing buf with
  | nil => rfl
  | cons b body ih =>
    rw [stuffAll_cons, listRun_append, listRun_stuff p hv, ih, List.length_append, List.replicate_add]
    rfl

/-- With room for all of them the appends build the body. -/
theorem foldl_listAppend_of_le (p : Params) (buf body : List Byte) (h : buf.length + body.length ≤ p.cap) :
    body.foldl (listAppend p) buf = buf ++ body := by
  induction body generalizing buf with
  | nil => simp
  | cons b body ih =>
    rw [List.length_cons] at h
    have hroom : listAppend p buf b = buf ++ [b] := if_neg (by omega)
    rw [List.foldl_cons, hroom, ih _ (by simp; omega), List.append_assoc, List.singleton_append]

/-- A frame leaves the flag clear; its END checks what the body's appends have left. -/
theorem listRun_encodeFrame (p : Params) (hv : p.valid = true) (buf payload : List Byte) :
    listRun p ⟨buf, false⟩ (encodeFrame p payload)
      = (⟨(frameBody p payload).foldl (listAppend p) [], false⟩,
          List.replicate ((stuffAll p (frameBody p payload)).length + 1) none
            ++ [listCheck p ((frameBody p payload).foldl (listAppend p) [])]) := by
  rw [encodeFrame, List.append_assoc, List.singleton_append, listRun, listFeed_startMarker, listRun_append,
    listRun_stuffAll p hv]
  simp [listRun, listFeed_endMarker p hv, List.replicate_succ]

/-- The body of a frame within CAP passes its own check, unless its payload is empty (R69). -/
theorem listCheck_frameBody (p : Params) (payload : List Byte) :
    listCheck p (frameBody p payload) = if payload = [] then none else some payload := by
  simp [listCheck, frameBody]

/-- A frame of a payload of at most CAP - 2 bytes (R141): only its END can deliver, and it delivers the payload unless
that is empty. -/
theorem listRun_encodeFrame_of_le (p : Params) (hv : p.valid = true) (buf payload : List Byte)
    (h : payload.length + 2 ≤ p.cap) :
    ∃ n, listRun p ⟨buf, false⟩ (encodeFrame p payload)
      = (⟨frameBody p payload, false⟩, List.replicate n none ++ [if payload = [] then none else some payload]) := by
  have hbuild := foldl_listAppend_of_le p [] (frameBody p payload) (by simpa [frameBody_length] using h)
  refine ⟨(stuffAll p (frameBody p payload)).length + 1, ?_⟩
  rw [listRun_encodeFrame p hv, hbuild, List.nil_append, listCheck_frameBody]

/-- With the flag set a frame's START is a literal byte (R143); from there on the flag is that of the frame. -/
theorem listRun_encodeFrame_esc (p : Params) (hv : p.valid = true) (buf payload : List Byte) :
    (listRun p ⟨buf, true⟩ (encodeFrame p payload)).1.esc = false := by
  rw [encodeFrame, List.append_assoc, List.singleton_append, listRun, listFeed_literal, listRun_append,
    listRun_stuffAll p hv]
  simp [listRun, listFeed_endMarker p hv]

/-! ### Plain bytes -/

theorem stuffAll_of_plain (p : Params) (bytes : List Byte) (h : ∀ b ∈ bytes, p.isMarker b = false) :
    stuffAll p bytes = bytes := by
  induction bytes with
  | nil => rfl
  | cons b bytes ih =>
    obtain ⟨hb, hrest⟩ := List.forall_mem_cons.1 h
    rw [stuffAll_cons, ih hrest, stuff, hb]
    rfl

/-- The bytes since the last overflow: as many complete rounds of CAP + 1 as there were are gone (R137). -/
theorem foldl_listAppend_nil (p : Params) (bytes : List Byte) :
    bytes.foldl (listAppend p) [] = bytes.drop (bytes.length / (p.cap + 1) * (p.cap + 1)) := by
  induction bytes using List.reverseRecOn with
  | nil => simp
  | append_singleton bytes b ih =>
    have hround := Nat.div_add_mod' bytes.length (p.cap + 1)
    have hmod : bytes.length % (p.cap + 1) < p.cap + 1 := Nat.mod_lt _ p.cap.succ_pos
    have hnext := Nat.add_one_mul (bytes.length / (p.cap + 1)) (p.cap + 1)
    rw [List.foldl_concat, ih, listAppend, List.length_drop, List.length_append, List.length_singleton]
    split
    · next hfull =>
      have hdiv : (bytes.length + 1) / (p.cap + 1) = bytes.length / (p.cap + 1) + 1 :=
        Nat.div_eq_of_lt_le (by omega) (by rw [Nat.add_one_mul]; omega)
      rw [hdiv, List.drop_eq_nil_of_le (by simp; omega)]
    · next hroom =>
      have hdiv : (bytes.length + 1) / (p.cap + 1) = bytes.length / (p.cap + 1) :=
        Nat.div_eq_of_lt_le (by omega) (by omega)
      rw [hdiv, List.drop_append_of_le_length (by omega)]

/-! ### Results -/

theorem map_feedOutput_replicate_none (n : Nat) :
    (List.replicate n (none : Option (List Byte))).map feedOutput = List.replicate n .none :=
  List.map_replicate

theorem deliveries_replicate_none_append (n : Nat) (outs : List Output) :
    deliveries (List.replicate n .none ++ outs) = deliveries outs := by
  induction n with
  | zero => rfl
  | succ n ih => exact ih

/-- Every result of a run from a state that meets the invariant fits (R146). -/
theorem runOps_outputs_fit (ops : List Instr) (s t : State) (outs : List Output) (hi : Inv s)
    (h : runOps ops s = .next (t, outs)) : ∀ o ∈ outs, o.fits s.params.cap = true := by
  induction ops generalizing s outs with
  | nil =>
    cases h
    exact nofun
  | cons i ops ih =>
    obtain ⟨u, outs', hexec, hrest⟩ := runOps_cons_eq_next _ _ _ _ _ h
    have hu : Inv u := hi.of_exec hexec
    have hparams : u.params = s.params := by rw [eq_afterExec_of_next i s u hexec, afterExec_params]
    rw [runOps_cons i ops s u t outs' hexec hrest] at h
    cases h
    refine List.forall_mem_cons.2 ⟨hparams ▸ hu.outputFits, ?_⟩
    rw [← hparams]
    exact ih u outs' hu hrest

/-! ### The obligations -/

theorem State.listDec_of_clear (s : State) (he : s.rxEsc = false) : s.listDec = ⟨s.held, false⟩ := by
  rw [State.listDec, he]

/-- Settles O23: on the list, each stuffed byte is appended and the body fits; the machine follows the list. -/
theorem unstuffingInvertsStuffing : Obligations.UnstuffingInvertsStuffing := by
  intro body s hi hlen he hbody
  obtain ⟨t, hrun, ht⟩ := runOps_feedOps (stuffAll s.params body) s hi
  have hempty : s.held = [] := List.eq_nil_of_length_eq_zero (s.held_length.trans hlen)
  rw [s.listDec_of_clear he, hempty, listRun_stuffAll _ hi.valid,
    foldl_listAppend_of_le _ _ _ (by simpa using hbody)] at hrun ht
  have hheld : t.held = body := congrArg ListDec.buf ht
  refine ⟨t, _, hrun, hheld, ?_, congrArg ListDec.esc ht, fun o ho => ?_⟩
  · rw [← t.held_length, hheld]
  · rw [map_feedOutput_replicate_none] at ho
    exact List.eq_of_mem_replicate ho

/-- Settles O24: on the list, START empties the buffer, the body fits, and END finds the body's own CRC. -/
theorem encodedFrameIsDelivered : Obligations.EncodedFrameIsDelivered := by
  intro payload s hi he h1 h2
  obtain ⟨t, hrun, ht⟩ := runOps_feedOps (encodeFrame s.params payload) s hi
  obtain ⟨n, hlist⟩ := listRun_encodeFrame_of_le s.params hi.valid s.held payload h2
  rw [s.listDec_of_clear he, hlist] at hrun ht
  rw [if_neg (List.ne_nil_of_length_pos h1), List.map_append, map_feedOutput_replicate_none] at hrun
  exact ⟨t, _, hrun, fun o ho => List.eq_of_mem_replicate ho, congrArg ListDec.esc ht⟩

/-- Settles O25: power-on has a clear flag, so its one delivery is that of O24. -/
theorem decodeOfEncodeIsPayload : Obligations.DecodeOfEncodeIsPayload := by
  intro p payload hv h1 h2
  obtain ⟨t, outs, hrun, hnone, -⟩ := encodedFrameIsDelivered payload (State.powerOn p) (.powerOn p hv) rfl h1 h2
  have hrun' : runOps (feedOps (encodeFrame p payload)) (State.powerOn p) = .next (t, outs ++ [.frame payload]) := hrun
  rw [decodeStream, hrun', List.eq_replicate_of_mem hnone]
  exact deliveries_replicate_none_append _ _

/-- Settles O26: the first frame leaves the flag clear whatever it delivers, and from there the second is delivered. -/
theorem danglingEscapeLosesAtMostOneFrame : Obligations.DanglingEscapeLosesAtMostOneFrame := by
  intro first second s hi he h1 h2
  obtain ⟨t, hrun, -⟩ := runOps_feedOps (encodeFrame s.params first ++ encodeFrame s.params second) s hi
  have hesc : (listRun s.params s.listDec (encodeFrame s.params first)).1.esc = false := by
    rw [State.listDec, he, listRun_encodeFrame_esc _ hi.valid]
  obtain ⟨n, hlist⟩ := listRun_encodeFrame_of_le s.params hi.valid
    (listRun s.params s.listDec (encodeFrame s.params first)).1.buf second h2
  rw [← hesc] at hlist
  rw [listRun_append, hlist, if_neg (List.ne_nil_of_length_pos h1), ← List.append_assoc, List.map_append] at hrun
  exact ⟨t, _, hrun⟩

/-- Settles O32: the body of an empty payload has two bytes, too few for END to deliver. -/
theorem emptyPayloadIsNeverDelivered : Obligations.EmptyPayloadIsNeverDelivered := by
  intro s hi he
  obtain ⟨-, -, -, hcap⟩ := (params_valid_iff _).1 hi.valid
  obtain ⟨t, hrun, -⟩ := runOps_feedOps (encodeFrame s.params []) s hi
  obtain ⟨n, hlist⟩ := listRun_encodeFrame_of_le s.params hi.valid s.held [] (by simp; omega)
  rw [s.listDec_of_clear he, hlist, if_pos rfl, ← List.replicate_succ', map_feedOutput_replicate_none] at hrun
  exact ⟨t, _, hrun, fun o ho => List.eq_of_mem_replicate ho⟩

/-- Settles O33: a result that a run hands over fits, and this payload does not. -/
theorem longPayloadIsNeverDelivered : Obligations.LongPayloadIsNeverDelivered := by
  intro payload s hi hlong
  obtain ⟨t, hrun, -⟩ := runOps_feedOps (encodeFrame s.params payload) s hi
  refine ⟨t, _, hrun, fun hmem => ?_⟩
  have hfits := runOps_outputs_fit _ _ _ _ hi hrun _ hmem
  simp only [Output.fits, decide_eq_true_eq] at hfits
  omega

/-- Settles O28: plain bytes are their own stuffing, so the run is one of appends. -/
theorem plainRunKeepsBytesSinceOverflow : Obligations.PlainRunKeepsBytesSinceOverflow := by
  intro bytes s hi hlen he hplain
  obtain ⟨t, hrun, ht⟩ := runOps_feedOps bytes s hi
  have hempty : s.held = [] := List.eq_nil_of_length_eq_zero (s.held_length.trans hlen)
  have hlist := listRun_stuffAll s.params hi.valid [] bytes
  rw [stuffAll_of_plain _ _ hplain, foldl_listAppend_nil] at hlist
  rw [s.listDec_of_clear he, hempty, hlist] at hrun ht
  rw [map_feedOutput_replicate_none] at hrun
  exact ⟨t, _, hrun, congrArg ListDec.buf ht, fun o ho => List.eq_of_mem_replicate ho⟩

/-- Settles O30: the escape marker sets the flag and is not appended; the byte after it is appended whatever it is. -/
theorem escapedByteIsAlwaysData : Obligations.EscapedByteIsAlwaysData := by
  intro b s hi he hroom
  obtain ⟨t, hrun, ht⟩ := runOps_feedOps [s.params.escMarker, b] s hi
  have happend : listAppend s.params s.held b = s.held ++ [b] := if_neg (by rw [s.held_length]; omega)
  have hlist : listRun s.params ⟨s.held, false⟩ [s.params.escMarker, b] = (⟨s.held ++ [b], false⟩, [none, none]) := by
    simp only [listRun, listFeed_escMarker _ hi.valid, listFeed_literal, happend]
  rw [s.listDec_of_clear he, hlist] at hrun ht
  exact ⟨t, _, hrun, congrArg ListDec.buf ht, congrArg ListDec.esc ht, rfl⟩

end Sys2Proof.Machine

/-! ## Proofs: delivery, the append's guard and the repeated end marker (42_decoder.md R131, R138, R142, R146) -/

namespace Sys2Proof.Machine

theorem afterExec_feed_of_class (b : Byte) (s : State) (c : ByteClass) (hc : classify s.params s.rxEsc b = c) :
    afterExec (.feed b) s = afterClass c b s := by
  rw [afterExec, hc]

/-! ### Who delivers -/

/-- Of the classes only DEC.END hands over a payload, and it is the one the check found. -/
theorem afterClass_output_eq_frame (c : ByteClass) (b : Byte) (s : State) (q : List Byte)
    (h : (afterClass c b s).output = .frame q) : c = .finish ∧ listCheck s.params s.held = some q := by
  cases c
  case lit | data => cases (afterAppend_output s b).symm.trans h
  case start | escape => cases h
  case finish =>
    refine ⟨rfl, ?_⟩
    rw [afterClass, answer_output] at h
    cases hq : listCheck s.params s.held with
    | none => rw [hq] at h; cases h
    | some q' => rw [hq] at h; cases h; rfl

theorem feedClass_of_output_eq_frame (i : Instr) (s : State) (q : List Byte)
    (h : (afterExec i s).output = .frame q) :
    feedClass i s = some .finish ∧ listCheck s.params s.held = some q := by
  by_cases hu : i.unit = some .dec
  · obtain ⟨c, hc⟩ := isSome_feedClass_of_dec i s hu
    rw [afterExec_of_feedClass i c s hc] at h
    obtain ⟨rfl, hq⟩ := afterClass_output_eq_frame c _ s q h
    exact ⟨hc, hq⟩
  · cases i
    case decLit | decStart | decEnd | decEsc | decData | feed => exact absurd rfl hu
    case crcClr | crcUpd | crcRd | encBegin | encPut | encEnd | reset => cases h

/-- An operation of class DEC.END that may be issued is an unescaped end marker. -/
theorem endMarker_of_feedClass_finish (i : Instr) (s : State) (hm : mayIssue i s = true)
    (hc : feedClass i s = some .finish) :
    (i = .decEnd ∨ i = .feed s.params.endMarker) ∧ s.rxEsc = false := by
  have table : ∀ b, classify s.params s.rxEsc b = .finish → s.rxEsc = false ∧ b = s.params.endMarker := fun b hb => by
    have table := classify_cases s.params s.rxEsc b
    rwa [hb] at table
  cases i with
  | decEnd =>
    obtain ⟨hesc, -⟩ := table _ (eq_of_beq hm)
    exact ⟨.inl rfl, hesc⟩
  | feed b =>
    obtain ⟨hesc, rfl⟩ := table b (Option.some.inj hc)
    exact ⟨.inr rfl, hesc⟩
  | decLit | decStart | decEsc | decData | crcClr | crcUpd | crcRd | encBegin | encPut | encEnd | reset => cases hc

/-! ### The obligations -/

/-- Settles O27: only class DEC.END hands over a payload, and what it hands over has passed the check on the held
bytes, which are at most CAP. -/
theorem deliveryOnlyOnMatchingCrc : Obligations.DeliveryOnlyOnMatchingCrc := by
  intro i s t q hi h hq
  obtain ⟨⟨-, hm, -⟩, rfl⟩ := (exec_eq_next_iff i s t).1 h
  obtain ⟨hc, hcheck⟩ := feedClass_of_output_eq_frame i s q hq
  obtain ⟨hop, hesc⟩ := endMarker_of_feedClass_finish i s hm hc
  obtain ⟨htake, hlen, htrailer⟩ := listCheck_eq_some _ _ _ hcheck
  rw [s.held_length] at htake hlen htrailer
  have hcap := hi.lenLe
  have hqlen : q.length = s.rxLen - 2 := by
    rw [htake, List.length_take, s.held_length]
    omega
  have hport : (afterExec i s).frameLen = some q.length := by
    rw [State.frameLen, State.frameData, hq, hqlen, afterExec_of_feedClass i _ s hc]
    rfl
  exact ⟨hop, hesc, hlen, htake, htrailer, hport, by omega, by omega⟩

/-- Settles O20: the two appending classes are the append of R131, and the three marker classes test no length. -/
theorem appendGuardFiresOnlyInAppend : Obligations.AppendGuardFiresOnlyInAppend := by
  intro b s hi
  refine ⟨_, exec_feed_of_inv b s hi, fun hb => ?_, fun hfull he => ⟨fun hb => ?_, fun hb => ?_⟩⟩
  · have happend : afterExec (.feed b) s = afterAppend s b := by
      cases he : s.rxEsc with
      | true => exact afterExec_feed_of_class b s .lit (by rw [he, classify_literal])
      | false =>
        have hplain := hb.resolve_left (by simp [he])
        exact afterExec_feed_of_class b s .data (by rw [he, classify_plain _ b hplain])
    rw [happend]
    exact afterAppend_appendEffect s b hi.canonical
  · rcases hb with rfl | rfl
    · rw [afterExec_feed_of_class _ s .finish (by rw [he, classify_endMarker _ hi.valid])]
      exact ⟨hfull, rfl⟩
    · rw [afterExec_feed_of_class _ s .escape (by rw [he, classify_escMarker _ hi.valid])]
      exact ⟨hfull, rfl⟩
  · subst hb
    rw [afterExec_feed_of_class _ s .start (by rw [he, classify_startMarker])]
    rfl

/-- Settles O29: an end marker writes the result alone, which the next one does not read. -/
theorem repeatedEndMarkerAnswersAgain : Obligations.RepeatedEndMarkerAnswersAgain := by
  intro s hi he
  have hanswer : afterExec (.feed s.params.endMarker) s = answer s (feedOutput (listCheck s.params s.held)) :=
    afterExec_feed_of_class _ s .finish (by rw [he, classify_endMarker _ hi.valid])
  have hexec := exec_feed_of_inv s.params.endMarker s hi
  rw [hanswer] at hexec
  exact ⟨_, hexec, rfl, he, (resultIsNotLatched _ s _).trans hexec⟩

end Sys2Proof.Machine
